-- ==== Sys2Proof/Word.lean ====
section
/-! DEFINITION. The two word types of the engine: a byte (R9) and the raw value of a 4-byte field (R15, R34). -/

namespace Sys2Proof

/-- "A *byte* is an integer in `0..255`, 8 bits" (R9). -/
abbrev Byte := BitVec 8

/-- An "unsigned 32-bit integer `raw`" (R14, R15). -/
abbrev Word32 := BitVec 32

end Sys2Proof
end

