-- ==== Sys2Proof/Config.lean ====
section
/-! DEFINITION. The implementation parameters of R8 as one record, `parameters` (UNVERIFIED: "numeric literals are unaudited", log 25,
unsafe), a short name for each, and the host's two free values. `PORT_BINDING` is a parameter no rule depends on (R41): it has no entry. -/

namespace Sys2Proof.Config

/-! ## The record -/

/-- A half-open range of indices of a frame (R9). -/
structure ByteRange where
  lo : Nat
  hi : Nat
  deriving DecidableEq, Repr

/-- How many indices the range has. -/
@[simp] abbrev ByteRange.width (r : ByteRange) : Nat := r.hi - r.lo

/-- The scale column of R108. -/
inductive Scale where
  /-- ×0.001. -/
  | perMille
  /-- ×1. -/
  | one
  /-- None: the field is a Boolean. -/
  | boolean
  deriving DecidableEq, Repr

/-- Nominal offset, width and scale of a status field (R108). -/
structure FieldSpec where
  nominal : Nat
  width   : Nat
  scale   : Scale
  deriving DecidableEq, Repr

/-- The parameters of R8, in the order of its table; the literals of R122 and the rows of R123 stand with the string ranges. -/
structure Parameters where
  /-- Bytes in an inbound frame, header included (R50). -/
  frameLen : Nat
  /-- Bytes 0 to 3 of an inbound frame (R35). -/
  rxMagic : List Byte
  /-- Index of the kind byte. -/
  kindPos : Nat
  kindStatus : Byte
  kindInfo : Byte
  /-- Bytes in a command frame (R55). -/
  cmdLen : Nat
  /-- Bytes 0 to 3 of a command frame (R35). -/
  txMagic : List Byte
  /-- The largest command payload (R58). -/
  maxPayload : Nat
  /-- Index of the checksum byte (R55). -/
  ckPos : Nat
  /-- What the three rows of R123 select, the last row first: the legal values of `variantOffset` (R12). -/
  offsetOtherwise : Nat
  offsetRow2 : Nat
  offsetRow1 : Nat
  /-- `variantOffset` after reset (R12; the spec's own choice D9; DESIGN CHOICE, log 3, unsafe). -/
  variantReset : Nat
  /-- Capacity of `buf`; none is unbounded (R11, D6; DESIGN CHOICE, log 14, unsafe). -/
  bufCap : Option Nat
  totalVoltage : FieldSpec
  remainingCapacity : FieldSpec
  nominalCapacity : FieldSpec
  cycleCount : FieldSpec
  chargeEnabled : FieldSpec
  dischargeEnabled : FieldSpec
  /-- The vendor identifier (R121). -/
  vendor : ByteRange
  /-- The firmware version (R121). -/
  firmware : ByteRange
  /-- R126. -/
  devicePasscode : ByteRange
  /-- R126. -/
  passcode : ByteRange
  /-- R126. -/
  setupPasscode : ByteRange
  /-- The ASCII literal `"JK_BD"` (R122). -/
  litJkBd : List Byte
  /-- The ASCII literal `"11."` (R122). -/
  lit11dot : List Byte
  /-- The ASCII literal `"JK_B2A"` (R122). -/
  litJkB2a : List Byte
  /-- The ASCII literal `"32S"` (R122). -/
  lit32s : List Byte
  /-- Opcode of `CMD.AUTHORIZE` (R59). -/
  opAuthorize : Byte
  /-- Opcode of `CMD.SET_CHARGE` (R59). -/
  opSetCharge : Byte
  /-- Opcode of `CMD.SET_DISCHARGE` (R59). -/
  opSetDischarge : Byte
  /-- Opcode of `CMD.REFRESH` (R59). -/
  opRefresh : Byte
  /-- Opcode of `CMD.INFO` (R59). -/
  opInfo : Byte
  /-- Host: the settle delay of `authorize` (R150), milliseconds. -/
  authorizeSettle : Nat
  /-- Host: the settle delay of `sendControl` before its refresh (R150). -/
  controlSettle : Nat
  /-- Host: the verification settle delay of `sendRobust` (R150). -/
  verifySettle : Nat
  /-- Host: the second verification wait of `sendRobust` (R150). -/
  verifyWait : Nat
  /-- Host: attempts of `sendRobust` (R150). -/
  robustAttempts : Nat
  /-- Host: the poll period (R148, R150). -/
  pollPeriod : Nat
  deriving DecidableEq, Repr

/-- The values the spec gives (R8, R59, R108, R121 to R123, R126, R150). -/
@[simp] abbrev parameters : Parameters where
  frameLen := 300
  rxMagic := [0x55#8, 0xAA#8, 0xEB#8, 0x90#8]
  kindPos := 4
  kindStatus := 0x02#8
  kindInfo := 0x03#8
  cmdLen := 20
  txMagic := [0xAA#8, 0x55#8, 0x90#8, 0xEB#8]
  maxPayload := 13
  ckPos := 19
  offsetOtherwise := 0
  offsetRow2 := 16
  offsetRow1 := 32
  variantReset := 0
  bufCap := none
  totalVoltage := ⟨118, 4, .perMille⟩
  remainingCapacity := ⟨142, 4, .perMille⟩
  nominalCapacity := ⟨146, 4, .perMille⟩
  cycleCount := ⟨150, 4, .one⟩
  chargeEnabled := ⟨166, 1, .boolean⟩
  dischargeEnabled := ⟨167, 1, .boolean⟩
  vendor := ⟨6, 22⟩
  firmware := ⟨30, 38⟩
  devicePasscode := ⟨62, 78⟩
  passcode := ⟨97, 102⟩
  setupPasscode := ⟨118, 134⟩
  litJkBd := [0x4A#8, 0x4B#8, 0x5F#8, 0x42#8, 0x44#8]
  lit11dot := [0x31#8, 0x31#8, 0x2E#8]
  litJkB2a := [0x4A#8, 0x4B#8, 0x5F#8, 0x42#8, 0x32#8, 0x41#8]
  lit32s := [0x33#8, 0x32#8, 0x53#8]
  opAuthorize := 0x05#8
  opSetCharge := 0x1D#8
  opSetDischarge := 0x1E#8
  opRefresh := 0x96#8
  opInfo := 0x97#8
  authorizeSettle := 500
  controlSettle := 500
  verifySettle := 3500
  verifyWait := 1000
  robustAttempts := 3
  pollPeriod := 2000

/-! ## Short names -/

/-- `FRAME_LEN` (R8). -/
@[simp] abbrev frameLen : Nat := parameters.frameLen
/-- `RX_MAGIC` (R8). -/
@[simp] abbrev rxMagic : List Byte := parameters.rxMagic
/-- `KIND_POS` (R8). -/
@[simp] abbrev kindPos : Nat := parameters.kindPos
/-- `KIND_STATUS` (R8, R51). -/
@[simp] abbrev kindStatus : Byte := parameters.kindStatus
/-- `KIND_INFO` (R8, R51). -/
@[simp] abbrev kindInfo : Byte := parameters.kindInfo
/-- Bytes of the inbound header, "bytes 0 to 3" (R8, R50). -/
@[simp] abbrev headerLen : Nat := rxMagic.length
/-- Bytes between the inbound header and the kind byte: none (R50). -/
@[simp] abbrev kindGap : Nat := kindPos - headerLen
/-- Bytes of an inbound frame that are neither header nor kind byte: `[5, 300)` (R50). -/
@[simp] abbrev bodyLen : Nat := frameLen - (headerLen + 1)
/-- `CMD_LEN` (R8). -/
@[simp] abbrev cmdLen : Nat := parameters.cmdLen
/-- `TX_MAGIC` (R8). -/
@[simp] abbrev txMagic : List Byte := parameters.txMagic
/-- Index of the opcode byte: it follows the outbound header (R8, R55). -/
@[simp] abbrev opcodePos : Nat := txMagic.length
/-- Index of the length byte (R55). -/
@[simp] abbrev lenPos : Nat := opcodePos + 1
/-- Index of the first payload byte (R55). -/
@[simp] abbrev payloadPos : Nat := opcodePos + 2
/-- `MAX_PAYLOAD` (R8). -/
@[simp] abbrev maxPayload : Nat := parameters.maxPayload
/-- `CK_POS` (R8). -/
@[simp] abbrev ckPos : Nat := parameters.ckPos
/-- `VARIANT_OFFSETS`: the legal values of `variantOffset` (R8, R12). -/
abbrev variantOffsets : List Nat := [parameters.offsetOtherwise, parameters.offsetRow2, parameters.offsetRow1]
/-- `VARIANT_RESET` (R8). -/
@[simp] abbrev variantReset : Nat := parameters.variantReset
/-- `BUF_CAP` (R8). -/
@[simp] abbrev bufCap : Option Nat := parameters.bufCap
/-- Opcode of `CMD.AUTHORIZE` (R59). -/
@[simp] abbrev opAuthorize : Byte := parameters.opAuthorize
/-- Opcode of `CMD.SET_CHARGE` (R59). -/
@[simp] abbrev opSetCharge : Byte := parameters.opSetCharge
/-- Opcode of `CMD.SET_DISCHARGE` (R59). -/
@[simp] abbrev opSetDischarge : Byte := parameters.opSetDischarge
/-- Opcode of `CMD.REFRESH` (R59). -/
@[simp] abbrev opRefresh : Byte := parameters.opRefresh
/-- Opcode of `CMD.INFO` (R59). -/
@[simp] abbrev opInfo : Byte := parameters.opInfo
/-- The settle delay of `authorize` (R150). -/
@[simp] abbrev authorizeSettle : Nat := parameters.authorizeSettle
/-- The settle delay of `sendControl` (R150). -/
@[simp] abbrev controlSettle : Nat := parameters.controlSettle
/-- The verification settle delay (R150). -/
@[simp] abbrev verifySettle : Nat := parameters.verifySettle
/-- The second verification wait (R150). -/
@[simp] abbrev verifyWait : Nat := parameters.verifyWait
/-- Attempts of `sendRobust` (R150). -/
@[simp] abbrev robustAttempts : Nat := parameters.robustAttempts
/-- The poll period (R150). -/
@[simp] abbrev pollPeriod : Nat := parameters.pollPeriod

/-! ## Free values -/

/-- FREE VALUE (DESIGN CHOICE, log 20, unsafe). What a host procedure does after a failed `write` or a refused `ENCODE` is a "`parameter`
of a host model" (U13, N14): it leaves out this many of its next actions. The argument is the counter `State.freeIx`, so that every
occurrence has a value of its own; there is no body, so no proof can know one. -/
opaque hostSkip : Nat → Nat

/-- FREE VALUE (DESIGN CHOICE, log 31, unsafe). R144 sends the setup passcode and does not say which bytes go out when `setupPasscode` is
`unknown`: any. The argument is the counter `State.freeIx`. -/
opaque unknownPasscode : Nat → List Byte

end Sys2Proof.Config
end

