-- ==== Sys2Proof/Machine/Bytes.lean ====
section
/-! DEFINITION. Byte sequences (R9) and the pure functions over them: subsequences, little-endian numbers, the two string tests, and
the Checksum Codec (40_checksum.md). None reads or writes state. -/

namespace Sys2Proof

/-- `s[lo, hi)`, "the subsequence of indices `lo` to `hi-1`" (R9). -/
def slice (s : List Byte) (lo hi : Nat) : List Byte := (s.drop lo).take (hi - lo)

/-- The little-endian value of a byte sequence; on four bytes it is `u32le` (R9, R34). -/
def leValue : List Byte → Nat
  | [] => 0
  | b :: bs => b.toNat + 256 * leValue bs

/-- The sum of the bytes as natural numbers (R9: "All sums are sums of natural numbers unless a rule says `mod`"). -/
def byteSum : List Byte → Nat
  | [] => 0
  | b :: bs => b.toNat + byteSum bs

/-- `CHECKSUM(s)`: the sum of all bytes modulo 256 (R70). -/
def checksum (s : List Byte) : Byte := BitVec.ofNat 8 (byteSum s % 256)

/-- The 8-bit accumulator of R71: starts at `0x00` and adds each byte with wrap-around. -/
def checksumAcc (s : List Byte) : Byte := s.foldl (fun acc b => acc + b) 0#8

/-- `starts_with(s, t)`: `len(s) >= len(t)` and `s[0, len(t)) = t` (R122). -/
def startsWith (s t : List Byte) : Bool := decide (t.length ≤ s.length) && decide (s.take t.length = t)

/-- `contains(s, t)`: some `i` has `s[i, i + len(t)) = t` (R122). -/
def containsBytes : List Byte → List Byte → Bool
  | [], t => startsWith [] t
  | b :: bs, t => startsWith (b :: bs) t || containsBytes bs t

/-- `find(buf)`: the lowest index `i` with `buf[i, i+4) = 55 AA EB 90`, or `none` (R76, R81; the first one is DEDUCED, log 12,
unsafe). -/
def findHeader : List Byte → Option Nat
  | [] => none
  | b :: bs => if (b :: bs).take Config.headerLen = Config.rxMagic then some 0 else (findHeader bs).map (· + 1)

/-- The encoding "unsigned little-endian" of R108 at a width. -/
def rdUnsigned (frame : List Byte) (p width : Nat) : Word32 := BitVec.ofNat 32 (leValue (slice frame p (p + width)))

/-- The encoding "boolean (`value == 1`)" of R108 at a width. -/
def rdFlag (frame : List Byte) (p width : Nat) : Bool := decide (leValue (slice frame p (p + width)) = 1)

/-- `rd_u32(frame, p)`, defined for `p + 4 <= 300` (R105). -/
def rdU32 (frame : List Byte) (p : Nat) : Word32 := rdUnsigned frame p 4

/-- `rd_bool(frame, p)`, defined for `p + 1 <= 300`: true exactly when the byte is `0x01` (R106). -/
def rdBool (frame : List Byte) (p : Nat) : Bool := rdFlag frame p 1

/-- `rd_cstr(frame, lo, hi)`: the bytes of the range up to, and not including, the first `0x00` (R107; exact bytes: DESIGN CHOICE,
log 10, unsafe outside ASCII). -/
def rdCstr (frame : List Byte) (lo hi : Nat) : List Byte := (slice frame lo hi).takeWhile (fun b => b != 0x00#8)

/-- Format `RX300`: the header, the kind byte at `KIND_POS`, the other bytes around it (R50). -/
def rx300 (kind : Byte) (body : List Byte) : List Byte :=
  Config.rxMagic ++ (body.take Config.kindGap ++ kind :: body.drop Config.kindGap)

end Sys2Proof
end

