-- ==== Sys2Proof/Syntax.lean ====
section
/-! DEFINITION. The wire encodings as syntax: one constructor per row of spec/opcode_table.json (R65), in the table's order, and the
shape of a row of that table (R66). -/

namespace Sys2Proof

/-- The nine rows of the opcode table. The `TX20` rows are `ENCODE` with operands (R64, R97 to R102); the `RX300` rows are
inbound frames, named by their kind (R51, R136 to R138). `body` is the bytes `[5, 300)` of the frame (R50). -/
inductive Instr where
  /-- `CMD.AUTHORIZE <passcode bytes>` = `ENCODE 0x05, <passcode bytes>` (R97). -/
  | cmdAuthorize (passcode : List Byte)
  /-- `CMD.SET_CHARGE <v>` = `ENCODE 0x1D, [v]` (R100). -/
  | cmdSetCharge (v : Byte)
  /-- `CMD.SET_DISCHARGE <v>` = `ENCODE 0x1E, [v]` (R101). -/
  | cmdSetDischarge (v : Byte)
  /-- `CMD.REFRESH` = `ENCODE 0x96, []` (R98). -/
  | cmdRefresh
  /-- `CMD.INFO` = `ENCODE 0x97, []` (R99). -/
  | cmdInfo
  /-- `CMD.RAW <opcode>, <bytes>` = `ENCODE <opcode>, <bytes>` (R102). -/
  | cmdRaw (opcode : Byte) (payload : List Byte)
  /-- `FRM.STATUS`: an inbound frame of kind `0x02` (R136). -/
  | frmStatus (body : List Byte)
  /-- `FRM.INFO`: an inbound frame of kind `0x03` (R137). -/
  | frmInfo (body : List Byte)
  /-- `FRM.OTHER`: an inbound frame of any other kind (R138). -/
  | frmOther (kind : Byte) (body : List Byte)
  deriving DecidableEq, Repr

/-- One row of `opcode_table.json` as R66 reads it: `pattern` and `mask` are bytes in index order, from byte 0. -/
structure OpcodeRow where
  mnemonic : String
  pattern  : List Byte
  mask     : List Byte
  length   : Nat
  deriving DecidableEq, Repr

end Sys2Proof
end

