-- ==== Sys2Proof/WellFormed.lean ====
section
/-! DEFINITION. Which terms of `Instr` stand for a byte sequence of the wire encodings: the payload bound (R58), the length of a
frame's body (R50), and the rule that the first matching row of the opcode table names a frame (R66). -/

namespace Sys2Proof

/-- The payload fits a command frame: `len(payload) <= 13` (R55, R58). -/
def payloadFits (payload : List Byte) : Bool := decide (payload.length ≤ Config.maxPayload)

/-- The body of an inbound frame has exactly 295 bytes (R50: "The length is fixed at 300"). -/
def bodyFits (body : List Byte) : Bool := decide (body.length = Config.bodyLen)

/-- An earlier `TX20` row of the opcode table than `CMD.RAW` matches this opcode and payload length (R66). -/
def namedCommand (opcode : Byte) (n : Nat) : Bool :=
  opcode == Config.opAuthorize
    || (opcode == Config.opSetCharge && n == 1) || (opcode == Config.opSetDischarge && n == 1)
    || (opcode == Config.opRefresh && n == 0) || (opcode == Config.opInfo && n == 0)

/-- An earlier `RX300` row than `FRM.OTHER` matches this kind (R51, R66). -/
def namedKind (kind : Byte) : Bool := kind == Config.kindStatus || kind == Config.kindInfo

/-- The instruction is the name of some byte sequence of its format. -/
def Instr.wellFormed : Instr → Bool
  | .cmdAuthorize passcode => payloadFits passcode
  | .cmdSetCharge _ => true
  | .cmdSetDischarge _ => true
  | .cmdRefresh => true
  | .cmdInfo => true
  | .cmdRaw opcode payload => payloadFits payload && !namedCommand opcode payload.length
  | .frmStatus body => bodyFits body
  | .frmInfo body => bodyFits body
  | .frmOther kind body => bodyFits body && !namedKind kind

end Sys2Proof
end

