-- ==== Sys2Proof/Decode.lean ====
section
/-! DEFINITION. From bytes to instructions and back: the decoder (total, rejecting by name), the encoder, the opcode table of R66 as
data, and the host's reading of a table word. -/

namespace Sys2Proof

/-- Why a byte sequence is neither a command frame (R62) nor an inbound frame (R50). -/
inductive DecodeError where
  /-- Neither header stands at index 0 (R35). -/
  | badMagic
  /-- The sequence has not the one length of its format: 20 or 300 bytes (R50, R55). -/
  | badLength
  /-- `c[5] > 13` (R62). -/
  | payloadLength
  /-- A byte of the padding is not `0x00` (R62). -/
  | padding
  /-- `c[19]` is not the sum of the bytes before it modulo 256 (R62). -/
  | checksum
  deriving DecidableEq, Repr

/-- The `TX20` row that names an opcode and a payload: the first match in the table's order, `CMD.RAW` last (R66). -/
def nameCommand (opcode : Byte) (payload : List Byte) : Instr :=
  if opcode = Config.opAuthorize then .cmdAuthorize payload
  else
    match payload with
    | [v] =>
      if opcode = Config.opSetCharge then .cmdSetCharge v
      else if opcode = Config.opSetDischarge then .cmdSetDischarge v
      else .cmdRaw opcode [v]
    | [] =>
      if opcode = Config.opRefresh then .cmdRefresh
      else if opcode = Config.opInfo then .cmdInfo
      else .cmdRaw opcode []
    | v :: w :: rest => .cmdRaw opcode (v :: w :: rest)

/-- The `RX300` row that names a kind and a body, `FRM.OTHER` last (R51, R66). -/
def nameFrame (kind : Byte) (body : List Byte) : Instr :=
  if kind = Config.kindStatus then .frmStatus body
  else if kind = Config.kindInfo then .frmInfo body
  else .frmOther kind body

/-- A command frame from the bytes behind its header. The conditions are R62's, in the order of its text; the
operands are `opcode = c[4]`, `payload = c[6, 6 + c[5])`. -/
def decodeCommand (tail : List Byte) : Except DecodeError Instr :=
  match tail with
  | [] | [_] => .error .badLength
  | opcode :: len :: rest =>
    if rest.length ≠ Config.cmdLen - Config.payloadPos then .error .badLength
    else if Config.maxPayload < len.toNat then .error .payloadLength
    else if slice rest len.toNat Config.maxPayload ≠ List.replicate (Config.maxPayload - len.toNat) 0x00#8 then .error .padding
    else if rest.drop Config.maxPayload ≠ [checksum (Config.txMagic ++ opcode :: len :: rest.take Config.maxPayload)] then .error .checksum
    else .ok (nameCommand opcode (rest.take len.toNat))

/-- An inbound frame from the bytes behind its header: nothing but the header and the count of 300 decides (R52; DESIGN CHOICE, log 15,
unsafe). -/
def decodeFrame (tail : List Byte) : Except DecodeError Instr :=
  match tail.drop Config.kindGap with
  | [] => .error .badLength
  | kind :: rest =>
    if (tail.take Config.kindGap ++ rest).length ≠ Config.bodyLen then .error .badLength
    else .ok (nameFrame kind (tail.take Config.kindGap ++ rest))

/-- The instruction a byte sequence stands for; a command frame is one of the set of R62 or none (DESIGN CHOICE, log 16, safe). -/
def decode (bytes : List Byte) : Except DecodeError Instr :=
  if bytes.take Config.opcodePos = Config.txMagic then decodeCommand (bytes.drop Config.opcodePos)
  else if bytes.take Config.headerLen = Config.rxMagic then decodeFrame (bytes.drop Config.headerLen)
  else .error .badMagic

/-! ## The encoder -/

/-- Bytes 0 to 18 of a command frame, by the fields of R55's table. -/
def txFields (opcode : Byte) (payload : List Byte) : List Byte :=
  Config.txMagic ++ [opcode] ++ [BitVec.ofNat 8 payload.length] ++ payload
    ++ List.replicate (Config.ckPos - (Config.payloadPos + payload.length)) 0x00#8

/-- Format `TX20` (R55). -/
def tx20 (opcode : Byte) (payload : List Byte) : List Byte :=
  txFields opcode payload ++ [checksum (txFields opcode payload)]

/-- The bytes of a well-formed instruction. -/
def encode : Instr → List Byte
  | .cmdAuthorize passcode => tx20 Config.opAuthorize passcode
  | .cmdSetCharge v => tx20 Config.opSetCharge [v]
  | .cmdSetDischarge v => tx20 Config.opSetDischarge [v]
  | .cmdRefresh => tx20 Config.opRefresh []
  | .cmdInfo => tx20 Config.opInfo []
  | .cmdRaw opcode payload => tx20 opcode payload
  | .frmStatus body => rx300 Config.kindStatus body
  | .frmInfo body => rx300 Config.kindInfo body
  | .frmOther kind body => rx300 kind body

/-! ## The opcode table (R66) -/

/-- The mnemonic of an instruction, as the opcode table spells it. -/
def Instr.mnemonic : Instr → String
  | .cmdAuthorize _ => "CMD.AUTHORIZE"
  | .cmdSetCharge _ => "CMD.SET_CHARGE"
  | .cmdSetDischarge _ => "CMD.SET_DISCHARGE"
  | .cmdRefresh => "CMD.REFRESH"
  | .cmdInfo => "CMD.INFO"
  | .cmdRaw _ _ => "CMD.RAW"
  | .frmStatus _ => "FRM.STATUS"
  | .frmInfo _ => "FRM.INFO"
  | .frmOther _ _ => "FRM.OTHER"

/-- A `TX20` row that fixes the bytes `fixed`, from byte 0, and leaves the others free. -/
def txRow (mnemonic : String) (fixed : List Byte) : OpcodeRow :=
  let free := List.replicate (Config.cmdLen - fixed.length) 0x00#8
  ⟨mnemonic, fixed ++ free, List.replicate fixed.length 0xFF#8 ++ free, Config.cmdLen⟩

/-- A `TX20` row with a one-byte payload: all but the payload byte and the checksum are fixed. -/
def setRow (mnemonic : String) (opcode : Byte) : OpcodeRow :=
  let free (n : Nat) : List Byte := List.replicate n 0x00#8
  ⟨mnemonic, Config.txMagic ++ [opcode, 0x01#8] ++ free (Config.cmdLen - Config.payloadPos),
    List.replicate Config.payloadPos 0xFF#8 ++ free 1 ++ List.replicate (Config.ckPos - (Config.payloadPos + 1)) 0xFF#8
      ++ free (Config.cmdLen - Config.ckPos),
    Config.cmdLen⟩

/-- An `RX300` row, up to the kind byte, for one kind or for every kind. -/
def rxRow (mnemonic : String) (kind : Option Byte) : OpcodeRow :=
  let gap := List.replicate Config.kindGap 0x00#8
  ⟨mnemonic, Config.rxMagic ++ gap ++ [kind.getD 0x00#8],
    List.replicate Config.headerLen 0xFF#8 ++ gap ++ [if kind.isSome then 0xFF#8 else 0x00#8], Config.frameLen⟩

/-- The rows of `opcode_table.json`, in file order; that `match` and `mask` are the file's, byte for byte, is a test. -/
def opcodeTable : List OpcodeRow :=
  [ txRow "CMD.AUTHORIZE" (Config.txMagic ++ [Config.opAuthorize]),
    setRow "CMD.SET_CHARGE" Config.opSetCharge,
    setRow "CMD.SET_DISCHARGE" Config.opSetDischarge,
    txRow "CMD.REFRESH" (tx20 Config.opRefresh []),
    txRow "CMD.INFO" (tx20 Config.opInfo []),
    txRow "CMD.RAW" Config.txMagic,
    rxRow "FRM.STATUS" (some Config.kindStatus),
    rxRow "FRM.INFO" (some Config.kindInfo),
    rxRow "FRM.OTHER" none ]

/-- "`c[i] AND mask[i] = match[i]` for every covered `i`" (R66). -/
def maskMatches : List Byte → List Byte → List Byte → Bool
  | [], [], _ => true
  | p :: ps, m :: ms, b :: bs => decide (b &&& m = p) && maskMatches ps ms bs
  | _, _, _ => false

/-- A byte sequence matches a row: the row's length, and the mask on the bytes it covers (R66). -/
def OpcodeRow.covers (row : OpcodeRow) (bytes : List Byte) : Bool :=
  decide (bytes.length = row.length) && maskMatches row.pattern row.mask bytes

/-- "Rows are tried in file order [...] so the first matching row names the frame" (R66). -/
def firstRow (bytes : List Byte) : Option OpcodeRow := opcodeTable.find? (fun row => row.covers bytes)

/-! ## The host's table words -/

/-- The first `n` bytes of a number whose bit 0 is the least significant bit of byte 0. -/
def wordBytes : Nat → Nat → List Byte
  | 0, _ => []
  | n + 1, w => BitVec.ofNat 8 w :: wordBytes n (w / 256)

/-- The `nbits` low bits of `w` laid out in index order, up to the length of the format its header names, zeros above. -/
def layoutWord (nbits w : Nat) : List Byte :=
  let bytes := wordBytes Config.frameLen (w % 2 ^ nbits)
  if bytes.take Config.opcodePos = Config.txMagic then bytes.take Config.cmdLen else bytes

/-- What the decoder reads from the instruction whose bits are `w`, numbered as the opcode table numbers them. -/
def decodeTableWord (nbits w : Nat) : Option Instr :=
  match decode (layoutWord nbits w) with
  | .ok i => some i
  | .error _ => none

end Sys2Proof
end

