-- ==== Sys2Proof/Machine/State.lean ====
section
/-! DEFINITION. The machine's state as plain data: the engine's registers of 10_state.md, its output events (R20), the transactions
the agents outside have started (R41, R141), and the Control Session of 46_host_control_session.md as an agent of its own. -/

namespace Sys2Proof.Machine

/-! ## The engine -/

/-- The engine state of one session (R26): created by `RESET`, discarded by `TEARDOWN` (R180, R182). -/
structure Session where
  /-- The AccumulationBuffer (R10), of any length (R11). -/
  buf : List Byte
  /-- The control register, one of 0, 16, 32 (R12, R25). -/
  variantOffset : Nat
  /-- R14; raw, scale ×0.001 (R15); `none` is `unknown` (R16). -/
  totalVoltage : Option Word32
  /-- R14; raw, scale ×0.001 (R15). -/
  remainingCapacity : Option Word32
  /-- R14; raw, scale ×0.001 (R15). -/
  nominalCapacity : Option Word32
  /-- R14; raw, scale ×1 (R15). -/
  cycleCount : Option Word32
  /-- R14, R16. -/
  chargeEnabled : Option Bool
  /-- R14, R16. -/
  dischargeEnabled : Option Bool
  /-- R17, from `frame[62, 78)`. -/
  devicePasscode : Option (List Byte)
  /-- R17, from `frame[97, 102)`. -/
  passcode : Option (List Byte)
  /-- R17, from `frame[118, 134)`. -/
  setupPasscode : Option (List Byte)
  deriving DecidableEq, Repr

/-- Every element at its reset value (R180; R10, R12, R16, R17). The source gives none for `variantOffset`, the numeric registers and the
credentials (DESIGN CHOICE, logs 3, 4, 5, unsafe). -/
def Session.initial : Session where
  buf := []
  variantOffset := Config.variantReset
  totalVoltage := none
  remainingCapacity := none
  nominalCapacity := none
  cycleCount := none
  chargeEnabled := none
  dischargeEnabled := none
  devicePasscode := none
  passcode := none
  setupPasscode := none

/-- An InboundFrame `{ kind, payload }`, the unit FR emits (R80, glossary of 00_scope.md): a value, not state (R21). -/
structure InboundFrame where
  kind : Byte
  payload : List Byte
  deriving DecidableEq, Repr

/-- The engine's outputs (R20), one constructor per row of its table; one event per frame and per command (DESIGN CHOICE, log 7, unsafe). -/
inductive Event where
  /-- `frame(kind, payload)`, by `FEED` (R80). -/
  | frame (f : InboundFrame)
  /-- The six status registers after a decode, by `DECODE_STATUS` (R111). -/
  | statusUpdate (totalVoltage remainingCapacity nominalCapacity cycleCount : Option Word32)
      (chargeEnabled dischargeEnabled : Option Bool)
  /-- The three credential registers after a detect, by `DETECT_VARIANT` (R127). -/
  | credentials (devicePasscode passcode setupPasscode : Option (List Byte))
  /-- A 20-byte command frame, by `ENCODE` (R90). -/
  | tx (cmd : List Byte)
  deriving DecidableEq, Repr

/-- The named refusals an operation can answer (R160). There is one (R161). -/
inductive Reject where
  /-- `Reject(PayloadTooLong)`, by `ENCODE` when `len(payload) > 13` (R91). -/
  | payloadTooLong
  deriving DecidableEq, Repr

/-- What an operation answers at its port (R41): "a result of that operation and is not kept" (R23). The field is the model's own;
the next operation overwrites it. -/
inductive Answer where
  /-- Nothing: the operation has no result. -/
  | done
  /-- The 20 bytes `ENCODE` returns (R90). -/
  | cmd (bytes : List Byte)
  /-- The byte `CHECKSUM` returns (R70). -/
  | sum (b : Byte)
  /-- The operation was refused and did nothing (R161). -/
  | rejected (r : Reject)
  deriving DecidableEq, Repr

/-! ## The host (Control Session) -/

/-- R142: the states of the Control Session. -/
inductive CsState where
  | unauthorized
  | authorizing
  | authorized
  deriving DecidableEq, Repr

/-- R145: the two control registers of the device. -/
inductive ControlReg where
  | charge
  | discharge
  deriving DecidableEq, Repr

/-- One atomic action of a host procedure (R144 to R146). -/
inductive HostAct where
  /-- "if not `Authorized` and a setup passcode is known, calls `authorize()` first" (R145). -/
  | authorizeIfNeeded
  /-- `Unauthorized → Authorizing`; from another state, no edge (R142; log 30). -/
  | enterAuthorizing
  /-- `Authorizing → Authorized` (R142, R144). -/
  | enterAuthorized
  /-- `ENCODE` the operands and hand the 20 bytes to `write` (R144, R145). -/
  | send (opcode : Byte) (payload : List Byte)
  /-- Suspend for at least this many milliseconds (R151, R197). -/
  | wait (ms : Nat)
  /-- Compare the observed Boolean with the target; `attempts` counts this attempt and those left (R146, R147). -/
  | compare (reg : ControlReg) (target : Bool) (attempts : Nat)
  deriving DecidableEq, Repr

/-- A procedure in flight: the rest of its present wait, and what it still does. -/
structure HostTask where
  wait : Nat
  todo : List HostAct
  deriving DecidableEq, Repr

/-- The host's part of the per-connection record of R143, with the poll timer (R148) and the procedures in flight (R151). -/
structure HostSession where
  /-- R22, R143; the spec gives it no type. -/
  deviceId : Nat
  /-- R142; the Boolean `authorized` is `csState = .authorized`. -/
  csState : CsState
  /-- Milliseconds until the poll timer next fires (R148). -/
  pollDue : Nat
  /-- The procedures in flight, in the order of their calls. -/
  tasks : List HostTask
  deriving DecidableEq, Repr

/-- What software calls on the host. -/
inductive HostCall where
  /-- `authorize()` (R144). -/
  | authorize
  /-- `sendControl(register, value)` (R145). -/
  | sendControl (reg : ControlReg) (value : Bool)
  /-- `sendRobust(register, value, observedStatusAccessor)` (R146). -/
  | sendRobust (reg : ControlReg) (value : Bool)
  deriving DecidableEq, Repr

/-- What the host tells its caller. -/
inductive HostReport where
  /-- The Boolean outcome of `sendRobust` (R146, R167). -/
  | robust (verified : Bool)
  /-- A transport failure, "propagated to the caller" (R166). -/
  | transportError
  deriving DecidableEq, Repr

/-- `authorized` of R142: "`true` exactly in `Authorized`". -/
def HostSession.authorized (h : HostSession) : Bool := decide (h.csState = .authorized)

/-- The host's record as a connect creates it (R143, R148); no procedure in flight, the first poll after a whole period (DESIGN CHOICE, logs
18, 19, unsafe). -/
def HostSession.initial (deviceId : Nat) : HostSession where
  deviceId := deviceId
  csState := .unauthorized
  pollDue := Config.pollPeriod
  tasks := []

/-! ## Transactions -/

/-- One move of an agent outside the engine. The first five are the transactions at the input ports of R41; the others are moves of
the host and of the transport that reach the engine only through `ENCODE` or not at all (R141, R168). -/
inductive Transaction where
  /-- `ctl` port, connect: `RESET` (R180). -/
  | connect (deviceId : Nat)
  /-- `ctl` port, disconnect: `TEARDOWN` (R182). -/
  | teardown
  /-- `rx` port: `FEED` (R75). -/
  | chunk (bytes : List Byte)
  /-- `enc` port: `ENCODE` (R90), called by the host itself (R153). `written` is the transport's answer to the write of the 20 bytes (R103,
  R140); the engine is not told of it (R166). -/
  | command (opcode : Byte) (payload : List Byte) (written : Bool)
  /-- `ck` port: `CHECKSUM` (R70). The port is "internal to `ENCODE`; may be exposed" (R41): the model exposes it (DESIGN CHOICE, log 32,
  safe). -/
  | checksum (bytes : List Byte)
  /-- Software calls a procedure of the host. -/
  | call (c : HostCall)
  /-- The `k`-th procedure in flight performs its next action; `written` is the transport's answer if that action writes (R140). -/
  | hostMove (k : Nat) (written : Bool)
  /-- The poll timer fires, if it is due (R148); `written` is the transport's answer to its write (R140). -/
  | poll (written : Bool)
  /-- Wall-clock time passes for the host (R197). -/
  | elapse (ms : Nat)
  /-- A `connect` or `disconnect` of the transport fails (R166). -/
  | linkFailure
  deriving DecidableEq, Repr

/-! ## The whole -/

/-- The machine. -/
structure State where
  /-- The engine state of the live session; `none` outside any session (R181 to R183). -/
  session : Option Session
  /-- MODEL'S OWN (DESIGN CHOICE, log 1, safe): the transactions started and not yet taken, oldest first. -/
  pending : List Transaction
  /-- The output event sequence, oldest first (R20); no operation reads it (DESIGN CHOICE, log 22, safe). -/
  events : List Event
  /-- MODEL'S OWN (DESIGN CHOICE, log 6, safe): what the last operation answered at its port. -/
  answer : Answer
  /-- The Control Session of the live connection (R22, R143). -/
  host : Option HostSession
  /-- MODEL'S OWN (DESIGN CHOICE, log 18, unsafe): what the host has told its caller, oldest first. -/
  reports : List HostReport
  /-- MODEL'S OWN (DESIGN CHOICE, log 28, unsafe): the buffers whose `write` the transport answered to the host with failure (R103, R140,
  R166), oldest first. -/
  writeFailures : List (List Byte)
  /-- MODEL'S OWN (logs 20, 31): the number of free values used, DESIGN CHOICE 0 at reset; no statement rests on its value. -/
  freeIx : Nat
  deriving DecidableEq, Repr

/-- The state right after `RESET` (R180; R181: "A model may equally start every run at the state of rule R180"; DESIGN CHOICE,
log 2, safe). -/
def State.reset : State where
  session := some Session.initial
  pending := []
  events := []
  answer := .done
  host := some (HostSession.initial 0)
  reports := []
  writeFailures := []
  freeIx := 0

/-- The engine has no fault: "no third: the engine has no fault state and no stuck state of its own" (R171). Nobody raises one, so
the type is empty (safe). -/
inductive Fault where
  deriving DecidableEq, Repr

/-- Why an operation has no step. -/
inductive Refusal where
  /-- An arm of `exec` without a meaning (none is left); safe. -/
  | notModelled (mnemonic : String)
  /-- By every operation but `RESET`, `TEARDOWN` and `CHECKSUM` outside a session (R183); safe. -/
  | outsideSession
  /-- By the frame operations on a byte sequence that is no InboundFrame (R30: `frame` is "exactly 300" bytes; R31); safe. -/
  | notAFrame
  /-- By `DECODE_STATUS` and `DETECT_VARIANT` on a frame of another kind (R112, R128); safe. -/
  | wrongKind
  /-- By `FEED` where `buf ++ chunk` passes a finite `BUF_CAP` (U3: "`refuse` (outside the spec)"; log 14). `BUF_CAP` is unbounded
  (R11), so nothing raises it (`withinCap_true`); safe. -/
  | bufferFull
  deriving DecidableEq, Repr

end Sys2Proof.Machine
end

