-- ==== Sys2Proof/Machine/Flags.lean ====
section
/-! DEFINITION. "The engine has no flags register and no condition codes" (R23). What stands in their place are the conditions the
operations test: the payload bound, the field bound, the form and the kind of a frame, and the variant table. -/

namespace Sys2Proof.Machine

/-- The one refusal's condition: `len(payload) > 13`, on the length alone (R91). -/
def payloadTooLong (payload : List Byte) : Bool := decide (Config.maxPayload < payload.length)

/-- `buf` of this length keeps within `BUF_CAP` (R8, R11): every length does, since the capacity is unbounded (log 14). -/
def withinCap (n : Nat) : Bool :=
  match Config.bufCap with
  | none => true
  | some cap => decide (n ≤ cap)

/-- The bound check of a field: `nominal + variantOffset + width <= 300` (R110; DEDUCED, log 27, safe). -/
def fieldContained (nominal offset width : Nat) : Bool := decide (nominal + offset + width ≤ Config.frameLen)

/-- The payload is a 300-byte run that starts with the header, and `kind` is its byte 4 (R31, R80). -/
def InboundFrame.wellFormed (f : InboundFrame) : Bool :=
  decide (f.payload.length = Config.frameLen) && decide (f.payload.take Config.headerLen = Config.rxMagic)
    && decide (f.payload[Config.kindPos]? = some f.kind)

/-- The decision table of R123, first match wins. -/
def selectVariant (vendor firmware : List Byte) : Nat :=
  if startsWith vendor Config.parameters.litJkBd || startsWith firmware Config.parameters.lit11dot then
    Config.parameters.offsetRow1
  else if startsWith vendor Config.parameters.litJkB2a || containsBytes vendor Config.parameters.lit32s then
    Config.parameters.offsetRow2
  else Config.parameters.offsetOtherwise

end Sys2Proof.Machine
end

