-- ==== Sys2Proof/Machine/Operands.lean ====
section
/-! DEFINITION. The operands of the decoders: the field table of R108 with the store of one field, and the strings of an info
frame (R121, R126). The read primitives themselves are in Machine/Bytes.lean. -/

namespace Sys2Proof.Machine

/-- The six fields of a status frame (R108), named by their registers (R14). -/
inductive StatusField where
  | totalVoltage
  | remainingCapacity
  | nominalCapacity
  | cycleCount
  | chargeEnabled
  | dischargeEnabled
  deriving DecidableEq, Repr

/-- One row of R108: the register, and the field's nominal offset, width and scale. -/
structure FieldRow extends Config.FieldSpec where
  field : StatusField
  deriving DecidableEq, Repr

/-- The field table, in its order (R108). -/
def fieldTable : List FieldRow :=
  [ ⟨Config.parameters.totalVoltage, .totalVoltage⟩,
    ⟨Config.parameters.remainingCapacity, .remainingCapacity⟩,
    ⟨Config.parameters.nominalCapacity, .nominalCapacity⟩,
    ⟨Config.parameters.cycleCount, .cycleCount⟩,
    ⟨Config.parameters.chargeEnabled, .chargeEnabled⟩,
    ⟨Config.parameters.dischargeEnabled, .dischargeEnabled⟩ ]

/-- The value of a raw integer at a scale: "the rational number `raw / 1000` (scale ×0.001) or `raw` (scale ×1)" (R15; DESIGN CHOICE, log
26, safe); a Boolean field has none. -/
def scaledValue (scale : Config.Scale) (raw : Word32) : Option Rat :=
  match scale with
  | .perMille => some ((raw.toNat : Rat) / 1000)
  | .one => some (raw.toNat : Rat)
  | .boolean => none

/-- The value of a register's raw integer, at the scale its row of R108 gives. -/
def StatusField.value (field : StatusField) (raw : Word32) : Option Rat :=
  (fieldTable.find? fun row => row.field == field).bind fun row => scaledValue row.scale raw

/-- Reads one field of the frame, `width` bytes at index `p`, into its register by its encoding (R108, R109). -/
def Session.storeField (field : StatusField) (frame : List Byte) (p width : Nat) (σ : Session) : Session :=
  match field with
  | .totalVoltage => { σ with totalVoltage := some (rdUnsigned frame p width) }
  | .remainingCapacity => { σ with remainingCapacity := some (rdUnsigned frame p width) }
  | .nominalCapacity => { σ with nominalCapacity := some (rdUnsigned frame p width) }
  | .cycleCount => { σ with cycleCount := some (rdUnsigned frame p width) }
  | .chargeEnabled => { σ with chargeEnabled := some (rdFlag frame p width) }
  | .dischargeEnabled => { σ with dischargeEnabled := some (rdFlag frame p width) }

/-- One row of the table: the field is read when the frame contains it, and skipped otherwise (R109, R110). -/
def Session.decodeRow (frame : List Byte) (σ : Session) (row : FieldRow) : Session :=
  if fieldContained row.nominal σ.variantOffset row.width then
    σ.storeField row.field frame (row.nominal + σ.variantOffset) row.width
  else σ

/-- The register writes of `DECODE_STATUS` (R109). -/
def Session.decodeStatus (frame : List Byte) (σ : Session) : Session := fieldTable.foldl (Session.decodeRow frame) σ

/-- `rd_cstr` over a range (R107). -/
def rdRange (frame : List Byte) (r : Config.ByteRange) : List Byte := rdCstr frame r.lo r.hi

/-- The vendor identifier of an info frame (R121). -/
def vendorOf (frame : List Byte) : List Byte := rdRange frame Config.parameters.vendor

/-- The firmware version of an info frame (R121). -/
def firmwareOf (frame : List Byte) : List Byte := rdRange frame Config.parameters.firmware

/-- The register writes of `DETECT_VARIANT` (R120, R124, R126): on every info frame (DESIGN CHOICE, log 8, unsafe), the passcodes cut at the
first null (DESIGN CHOICE, log 9, unsafe). -/
def Session.detectVariant (frame : List Byte) (σ : Session) : Session :=
  { σ with
    variantOffset := selectVariant (vendorOf frame) (firmwareOf frame)
    devicePasscode := some (rdRange frame Config.parameters.devicePasscode)
    passcode := some (rdRange frame Config.parameters.passcode)
    setupPasscode := some (rdRange frame Config.parameters.setupPasscode) }

/-- The `status_update` event that carries the registers as they stand (R111). -/
def Session.statusEvent (σ : Session) : Event :=
  .statusUpdate σ.totalVoltage σ.remainingCapacity σ.nominalCapacity σ.cycleCount σ.chargeEnabled σ.dischargeEnabled

/-- The `credentials` event that carries the registers as they stand (R127). -/
def Session.credentialsEvent (σ : Session) : Event := .credentials σ.devicePasscode σ.passcode σ.setupPasscode

end Sys2Proof.Machine
end

