-- ==== Sys2Proof/Machine/Ops.lean ====
section
/-! DEFINITION. The operations of the engine over its state: `RESET`, `TEARDOWN`, `ENCODE`, `CHECKSUM`, `DISPATCH`, `DECODE_STATUS`,
`DETECT_VARIANT` (R64), and the one refusal. `FEED` is in Machine/Feed.lean, since its loop runs `exec`. -/

namespace Sys2Proof.Machine

/-- The outcome of an operation. -/
abbrev Result := Host.Outcome State Fault Refusal

/-- Runs `k` on the next state of an outcome; a stop stays a stop. -/
def andThen (o : Result) (k : State → Result) : Result :=
  match o with
  | .next s => k s
  | .fault r => .fault r
  | .refused r => .refused r

/-! ## Updates of the state -/

/-- Writes the engine state of the live session. -/
def State.setSession (s : State) (σ : Session) : State := { s with session := some σ }

/-- Discards the engine state (R182). -/
def State.dropSession (s : State) : State := { s with session := none }

/-- `emit ev` (R9, R20): appends to the output event sequence. -/
def State.emit (s : State) (e : Event) : State := { s with events := s.events ++ [e] }

/-- The operation answers at its port. -/
def State.setAnswer (s : State) (a : Answer) : State := { s with answer := a }

/-- Writes the transactions not yet taken. -/
def State.setPending (s : State) (p : List Transaction) : State := { s with pending := p }

/-- Writes `buf` (R10). -/
def Session.setBuf (σ : Session) (b : List Byte) : Session := { σ with buf := b }

/-! ## Session and refusal -/

/-- An operation that acts on the engine state has no step outside a session (R183; DESIGN CHOICE, log 13, safe). -/
def inSession (s : State) (k : Session → Result) : Result :=
  match s.session with
  | none => .refused .outsideSession
  | some σ => k σ

/-- `raise Reject(reason)` "ends an operation with the named refusal and no write" (R9, R161): the machine goes on from the state it
had, and the port answers the refusal. Nothing is saved and there is nothing to return from (R171). DESIGN CHOICE, log 6, safe. -/
def raiseReject (r : Reject) (s : State) : Result := .next (s.setAnswer (.rejected r))

/-- `RESET` (R180): every element at its reset value; no event. In a live session it is `TEARDOWN` then `RESET` (R184), which this
is, since nothing of the old session is kept (DESIGN CHOICE, log 17, unsafe). -/
def resetOp (s : State) : State := (s.setSession Session.initial).setAnswer .done

/-- `TEARDOWN` (R182): the whole engine state of the session is discarded; no event. -/
def teardownOp (s : State) : State := s.dropSession.setAnswer .done

/-! ## Transmit -/

/-- The 20 bytes of a command frame, in the order of building of R56 and R90: six bytes, the payload, zeros to length 19, the sum. -/
def buildCommand (opcode : Byte) (payload : List Byte) : List Byte :=
  let n := payload.length
  let cmd := Config.txMagic ++ [opcode, BitVec.ofNat 8 n] ++ payload ++ List.replicate (Config.maxPayload - n) 0x00#8
  cmd ++ [checksum (slice cmd 0 Config.ckPos)]

/-- `ENCODE` (R90, R91): refuses a payload of more than 13 bytes; otherwise emits and returns the frame. Outside a session it is
refused (R183), and the session is tested before the length, so an over-long payload is then refused as `outsideSession` (DESIGN CHOICE,
log 13, safe). It reads and writes no register (R96). -/
def encodeOp (opcode : Byte) (payload : List Byte) (s : State) : Result :=
  inSession s fun _ =>
    if payloadTooLong payload then raiseReject .payloadTooLong s
    else .next ((s.emit (.tx (buildCommand opcode payload))).setAnswer (.cmd (buildCommand opcode payload)))

/-- `CHECKSUM` at the `ck` port (R70), which the model exposes (DESIGN CHOICE, log 32, safe): "could be computed at any time" (R183). -/
def checksumOp (bytes : List Byte) (s : State) : Result := .next (s.setAnswer (.sum (checksum bytes)))

/-! ## Receive -/

/-- `DECODE_STATUS` (R109): refused on anything but a frame of kind `0x02` (R112). -/
def decodeStatusOp (f : InboundFrame) (s : State) : Result :=
  inSession s fun σ =>
    if !f.wellFormed then .refused .notAFrame
    else if f.kind = Config.kindStatus then
      .next ((s.setSession (σ.decodeStatus f.payload)).emit (σ.decodeStatus f.payload).statusEvent)
    else .refused .wrongKind

/-- `DETECT_VARIANT` (R120): refused on anything but a frame of kind `0x03` (R128). -/
def detectVariantOp (f : InboundFrame) (s : State) : Result :=
  inSession s fun σ =>
    if !f.wellFormed then .refused .notAFrame
    else if f.kind = Config.kindInfo then
      .next ((s.setSession (σ.detectVariant f.payload)).emit (σ.detectVariant f.payload).credentialsEvent)
    else .refused .wrongKind

/-- `DISPATCH` (R135): the engine's only control transfer. -/
def dispatchOp (f : InboundFrame) (s : State) : Result :=
  inSession s fun _ =>
    if f.kind = Config.kindStatus then decodeStatusOp f s
    else if f.kind = Config.kindInfo then detectVariantOp f s
    else .next s

/-- `emit frame(kind, payload)`, then `DISPATCH` (R76): what becomes of one frame FR has cut. -/
def receiveFrame (f : InboundFrame) (s : State) : Result :=
  inSession s fun _ => if f.wellFormed then dispatchOp f (s.emit (.frame f)) else .refused .notAFrame

/-- The InboundFrame of a kind and a body (R50, R80): the payload is the whole raw frame (R31). -/
def frameOf (kind : Byte) (body : List Byte) : InboundFrame := ⟨kind, rx300 kind body⟩

end Sys2Proof.Machine
end

