-- ==== Sys2Proof/Machine/Command.lean ====
section
/-! DEFINITION. The meanings of the `TX20` rows: each is `ENCODE` with the operands its rule gives (R97 to R102). What the device does
with the frame is not behaviour of the engine. -/

namespace Sys2Proof.Machine

/-- `CMD.AUTHORIZE` (R97): the passcode's bytes unchanged; 14, 15 or 16 of them are refused (R192). -/
def execCmdAuthorize (passcode : List Byte) (s : State) : Result := encodeOp Config.opAuthorize passcode s

/-- `CMD.SET_CHARGE` (R100): any `v`. -/
def execCmdSetCharge (v : Byte) (s : State) : Result := encodeOp Config.opSetCharge [v] s

/-- `CMD.SET_DISCHARGE` (R101): any `v`. -/
def execCmdSetDischarge (v : Byte) (s : State) : Result := encodeOp Config.opSetDischarge [v] s

/-- `CMD.REFRESH` (R98): empty payload (the spec's own choice D18; log 11). -/
def execCmdRefresh (s : State) : Result := encodeOp Config.opRefresh [] s

/-- `CMD.INFO` (R99): empty payload (D18; log 11). -/
def execCmdInfo (s : State) : Result := encodeOp Config.opInfo [] s

/-- `CMD.RAW` (R102): "Rule R90 applies unchanged". -/
def execCmdRaw (opcode : Byte) (payload : List Byte) (s : State) : Result := encodeOp opcode payload s

end Sys2Proof.Machine
end

