-- ==== Sys2Proof/Machine/Frame.lean ====
section
/-! DEFINITION. The meanings of the `RX300` rows: emit the frame, then `DISPATCH` it by its kind (R136 to R138). -/

namespace Sys2Proof.Machine

/-- `FRM.STATUS` (R136): events `frame(0x02, payload)`, `status_update(...)`. -/
def execFrmStatus (body : List Byte) (s : State) : Result := receiveFrame (frameOf Config.kindStatus body) s

/-- `FRM.INFO` (R137): events `frame(0x03, payload)`, `credentials(...)`. -/
def execFrmInfo (body : List Byte) (s : State) : Result := receiveFrame (frameOf Config.kindInfo body) s

/-- `FRM.OTHER` (R138): the `frame` event and nothing more. -/
def execFrmOther (kind : Byte) (body : List Byte) (s : State) : Result := receiveFrame (frameOf kind body) s

end Sys2Proof.Machine
end

