-- ==== Sys2Proof/Machine/Dispatch.lean ====
section
/-! DEFINITION. One arm per row of the opcode table. -/

namespace Sys2Proof.Machine

def exec (i : Instr) (s : State) : Host.Outcome State Fault Refusal :=
  match i with
  | .cmdAuthorize passcode => Sys2Proof.Machine.execCmdAuthorize passcode s
  | .cmdSetCharge v => Sys2Proof.Machine.execCmdSetCharge v s
  | .cmdSetDischarge v => Sys2Proof.Machine.execCmdSetDischarge v s
  | .cmdRefresh => Sys2Proof.Machine.execCmdRefresh s
  | .cmdInfo => Sys2Proof.Machine.execCmdInfo s
  | .cmdRaw opcode payload => Sys2Proof.Machine.execCmdRaw opcode payload s
  | .frmStatus body => Sys2Proof.Machine.execFrmStatus body s
  | .frmInfo body => Sys2Proof.Machine.execFrmInfo body s
  | .frmOther kind body => Sys2Proof.Machine.execFrmOther kind body s

end Sys2Proof.Machine
end

