-- ==== Sys2Proof/Machine/ControlSession.lean ====
section
/-! DEFINITION. The host of the engine as an agent of its own (DESIGN CHOICE, logs 18, 19, 23, 28): the Control Session of 46_host_control_session.md, its procedures, its
poll timer and its waits. It acts on the engine only through `ENCODE` and reads only the status and credential registers (R153). -/

namespace Sys2Proof.Machine

/-! ## Updates of the state -/

/-- Writes the host's record. -/
def State.setHost (s : State) (h : HostSession) : State := { s with host := some h }

/-- Destroys the host's record (R143: "destroyed on disconnect"). -/
def State.dropHost (s : State) : State := { s with host := none }

/-- The host tells its caller something. -/
def State.report (s : State) (r : HostReport) : State := { s with reports := s.reports ++ [r] }

/-- The transport answers the host that the write of these bytes failed (R103, R140). -/
def State.failWrite (s : State) (cmd : List Byte) : State := { s with writeFailures := s.writeFailures ++ [cmd] }

/-- A free value has been used. -/
def State.nextFree (s : State) : State := { s with freeIx := s.freeIx + 1 }

/-! ## Procedures -/

/-- The device register's number, which is the command's opcode (R59, R145). -/
def ControlReg.opcode : ControlReg → Byte
  | .charge => Config.opSetCharge
  | .discharge => Config.opSetDischarge

/-- The status register the verify loop reads (R147). -/
def ControlReg.observed (reg : ControlReg) (σ : Session) : Option Bool :=
  match reg with
  | .charge => σ.chargeEnabled
  | .discharge => σ.dischargeEnabled

/-- Value `1` is enable and `0` is disable (R145). -/
def controlByte (value : Bool) : Byte := if value then 0x01#8 else 0x00#8

/-- `authorize()` (R144) with the passcode it was started with: the spec gives no moment at which the host reads `setupPasscode`, and the
model reads it when `authorize` starts, so an info frame before the `send` does not change the bytes sent (DESIGN CHOICE, log 29, unsafe). -/
def authorizeActs (passcode : List Byte) : List HostAct :=
  [.enterAuthorizing, .send Config.opAuthorize passcode, .wait Config.authorizeSettle, .enterAuthorized]

/-- `sendControl(register, value)` (R145). -/
def controlActs (reg : ControlReg) (value : Bool) : List HostAct :=
  [.authorizeIfNeeded, .send reg.opcode [controlByte value], .wait Config.controlSettle, .send Config.opRefresh []]

/-- One attempt of `sendRobust` (R146). -/
def robustActs (reg : ControlReg) (value : Bool) (attempts : Nat) : List HostAct :=
  controlActs reg value
    ++ [.wait Config.verifySettle, .send Config.opRefresh [], .wait Config.verifyWait, .compare reg value attempts]

/-! ## Moves -/

/-- The engine runs the command and the transport answers `written` (R103, R140). -/
def hostWrite (opcode : Byte) (payload : List Byte) (s : State) : Result := exec (nameCommand opcode payload) s

/-- The bytes of the last `ENCODE` reached the transport and the transport took them. -/
def wroteBytes (written : Bool) (s : State) : Bool :=
  match s.answer with
  | .cmd _ => written
  | _ => false

/-- The bytes of the last `ENCODE`, if their write failed; a refused one had nothing to write. -/
def failedBytes (written : Bool) (s : State) : Option (List Byte) :=
  match s.answer, written with
  | .cmd c, false => some c
  | .cmd _, true => none
  | .done, _ | .sum _, _ | .rejected _, _ => none

/-- The transport's answer to the write that follows an `ENCODE` reaches the host (R140). -/
def noteWrite (written : Bool) (s : State) : State :=
  match failedBytes written s with
  | none => s
  | some c => s.failWrite c

/-- The same, and the host propagates a failure to its caller, once (R166). -/
def reportWrite (written : Bool) (s : State) : State :=
  match failedBytes written s with
  | none => s
  | some c => (s.failWrite c).report .transportError

/-- Replaces the `k`-th procedure in flight. -/
def HostSession.setTask (h : HostSession) (k : Nat) (t : HostTask) : HostSession := { h with tasks := h.tasks.set k t }

/-- The `k`-th procedure has ended. -/
def HostSession.endTask (h : HostSession) (k : Nat) : HostSession := { h with tasks := h.tasks.eraseIdx k }

/-- Moves the state machine of R142. -/
def HostSession.setCs (h : HostSession) (c : CsState) : HostSession := { h with csState := c }

/-- `Unauthorized → Authorizing` (R142). No other state has an edge to `Authorizing`, and only a disconnect leaves `Authorized`: an
`authorize` that starts there, which R142 does not describe, sends and waits and leaves the state as it is (DESIGN CHOICE, log 30, unsafe). -/
def HostSession.startAuthorizing (h : HostSession) : HostSession :=
  match h.csState with
  | .unauthorized => h.setCs .authorizing
  | .authorizing | .authorized => h

/-- After a `send`: a success goes on; a failed write is reported once (R166; `reportWrite`); after a failed write or a refused `ENCODE` the procedure
leaves out a free number of its next actions (U13; log 20). -/
def afterSend (h : HostSession) (k : Nat) (rest : List HostAct) (written : Bool) (s : State) : State :=
  if wroteBytes written s then s.setHost (h.setTask k ⟨0, rest⟩)
  else reportWrite written (s.setHost (h.setTask k ⟨0, rest.drop (Config.hostSkip s.freeIx)⟩)).nextFree

/-- One action of the `k`-th procedure. `authorizeIfNeeded` starts `authorize` with the passcode as it stands then (log 29). -/
def hostAct (h : HostSession) (σ : Session) (k : Nat) (a : HostAct) (rest : List HostAct) (written : Bool) (s : State) : Result :=
  match a with
  | .authorizeIfNeeded =>
    match h.authorized, σ.setupPasscode with
    | false, some p => .next ((s.setHost (h.setTask k ⟨0, authorizeActs p ++ rest⟩)).setAnswer .done)
    | _, _ => .next ((s.setHost (h.setTask k ⟨0, rest⟩)).setAnswer .done)
  | .enterAuthorizing => .next ((s.setHost (h.setTask k ⟨0, rest⟩).startAuthorizing).setAnswer .done)
  | .enterAuthorized => .next ((s.setHost ((h.setTask k ⟨0, rest⟩).setCs .authorized)).setAnswer .done)
  | .send opcode payload => andThen (hostWrite opcode payload s) fun s' => .next (afterSend h k rest written s')
  | .wait ms => .next ((s.setHost (h.setTask k ⟨ms, rest⟩)).setAnswer .done)
  | .compare reg target attempts =>
    if reg.observed σ = some target then
      .next (((s.setHost (h.setTask k ⟨0, rest⟩)).report (.robust true)).setAnswer .done)
    else if 1 < attempts then
      .next ((s.setHost (h.setTask k ⟨0, robustActs reg target (attempts - 1) ++ rest⟩)).setAnswer .done)
    else .next (((s.setHost (h.setTask k ⟨0, rest⟩)).report (.robust false)).setAnswer .done)

/-- The `k`-th procedure gets its turn: it waits on, ends, or performs its next action. A turn for a procedure that is not there
changes nothing. -/
def hostMove (k : Nat) (written : Bool) (s : State) : Result :=
  inSession s fun σ =>
    match s.host with
    | none => .refused .outsideSession
    | some h =>
      match h.tasks[k]? with
      | none => .next (s.setAnswer .done)
      | some t =>
        if 0 < t.wait then .next (s.setAnswer .done)
        else
          match t.todo with
          | [] => .next ((s.setHost (h.endTask k)).setAnswer .done)
          | a :: rest => hostAct h σ k a rest written s

/-- Starts a procedure behind those in flight (log 18). -/
def startTask (h : HostSession) (acts : List HostAct) (s : State) : State :=
  (s.setHost { h with tasks := h.tasks ++ [⟨0, acts⟩] }).setAnswer .done

/-- Software calls a procedure. `authorize` starts with the passcode as it stands at the call (DESIGN CHOICE, log 29, unsafe); R144 does not
say what is sent while `setupPasscode` is `unknown`: a free value (DESIGN CHOICE, log 31, unsafe). -/
def hostCall (c : HostCall) (s : State) : Result :=
  inSession s fun σ =>
    match s.host with
    | none => .refused .outsideSession
    | some h =>
      match c with
      | .authorize =>
        match σ.setupPasscode with
        | none => .next (startTask h (authorizeActs (Config.unknownPasscode s.freeIx)) s).nextFree
        | some p => .next (startTask h (authorizeActs p) s)
      | .sendControl reg value => .next (startTask h (controlActs reg value) s)
      | .sendRobust reg value => .next (startTask h (robustActs reg value Config.robustAttempts) s)

/-- The poll timer: when it is due, one `CMD.REFRESH` and its write, and the period starts again (R148). The host learns of a failed write
(R140) and reports it to nobody: the failures a user sees are those "during authorization/control" (R166; log 28). -/
def hostPoll (written : Bool) (s : State) : Result :=
  inSession s fun _ =>
    match s.host with
    | none => .refused .outsideSession
    | some h =>
      if 0 < h.pollDue then .next (s.setAnswer .done)
      else andThen (exec .cmdRefresh (s.setHost { h with pollDue := Config.pollPeriod })) fun s' => .next (noteWrite written s')

/-- Wall-clock time passes: waits and the poll timer count down; the engine has no time (R173, R196). -/
def hostElapse (ms : Nat) (s : State) : Result :=
  match s.host with
  | none => .next (s.setAnswer .done)
  | some h =>
    .next ((s.setHost { h with
      pollDue := h.pollDue - ms
      tasks := h.tasks.map fun t => { t with wait := t.wait - ms } }).setAnswer .done)

/-- A connect: `RESET`, and the host's record is created anew (R143, R180). -/
def hostConnect (deviceId : Nat) (s : State) : Result := .next ((resetOp s).setHost (HostSession.initial deviceId))

/-- A teardown: `TEARDOWN`, and the host's record with its poll timer, its `authorized` and its procedures is gone (R152, R182). -/
def hostTeardown (s : State) : Result := .next (teardownOp s).dropHost

end Sys2Proof.Machine
end

