-- ==== Sys2Proof/Machine/Feed.lean ====
section
/-! DEFINITION. `FEED`, the one operation of the Frame Reassembler (41_reassembler.md). The capacity of `buf` is `BUF_CAP`, unbounded
(DESIGN CHOICE, log 14, unsafe), and each frame is dispatched before the next search (DESIGN CHOICE, log 24, safe). -/

namespace Sys2Proof.Machine

/-- The engine runs the instruction a cut frame stands for: `emit frame`, then `DISPATCH` (R76, R80). -/
def runFrame (f : List Byte) (s : State) : Result :=
  match decode f with
  | .ok i => exec i s
  | .error _ => .refused .notAFrame

/-- The loop of R76. Every pass that goes on shortens `buf` (R82), so `buf.length + 1` passes are enough. -/
def feedLoop : Nat → State → Result
  | 0, s => .next s
  | fuel + 1, s =>
    inSession s fun σ =>
      match findHeader σ.buf with
      | none => .next s
      | some 0 =>
        if σ.buf.length < Config.frameLen then .next s
        else
          andThen (runFrame (σ.buf.take Config.frameLen) (s.setSession (σ.setBuf (σ.buf.drop Config.frameLen)))) (feedLoop fuel)
      | some (i + 1) => feedLoop fuel (s.setSession (σ.setBuf (σ.buf.drop (i + 1))))

/-- `FEED chunk` (R75, R76): append, then the loop. It has no result, and in a session no refusal, since `BUF_CAP` is unbounded (R11); a
finite one would refuse the chunk that passes it (U3, log 14). -/
def feed (chunk : List Byte) (s : State) : Result :=
  inSession s fun σ =>
    if withinCap (σ.buf ++ chunk).length then
      feedLoop ((σ.buf ++ chunk).length + 1) ((s.setSession (σ.setBuf (σ.buf ++ chunk))).setAnswer .done)
    else .refused .bufferFull

end Sys2Proof.Machine
end

