-- ==== Sys2Proof/Machine/Ports.lean ====
section
/-! DEFINITION. What one transaction does (R41, R168), and the fetch of the host's table word: where it is placed so that the very
next step runs it. -/

namespace Sys2Proof.Machine

/-- `ENCODE` at the `enc` port: the engine runs the command the operands name (R64, R66). -/
def runCommand (opcode : Byte) (payload : List Byte) (s : State) : Result := exec (nameCommand opcode payload) s

/-- The host calls `ENCODE` itself and hands the 20 bytes to `write`; a failure goes to its caller, whatever the opcode (R103, R153, R166;
log 28). -/
def hostCommand (opcode : Byte) (payload : List Byte) (written : Bool) (s : State) : Result :=
  andThen (runCommand opcode payload s) fun s' => .next (reportWrite written s')

/-- One transaction, whole (R41: "no other operation is interleaved with it"). -/
def perform (t : Transaction) (s : State) : Result :=
  match t with
  | .connect deviceId => hostConnect deviceId s
  | .teardown => hostTeardown s
  | .chunk bytes => feed bytes s
  | .command opcode payload written => hostCommand opcode payload written s
  | .checksum bytes => checksumOp bytes s
  | .call c => hostCall c s
  | .hostMove k written => hostMove k written s
  | .poll written => hostPoll written s
  | .elapse ms => hostElapse ms s
  | .linkFailure => .next ((s.report .transportError).setAnswer .done)

/-- The transaction that brings an instruction to the engine: an inbound frame comes as a chunk at `rx`; a command comes as its
operands at `enc` (R62: `opcode = c[4]`, `payload = c[6, 6 + c[5])`) with a write that succeeds. -/
def transactionOf (bytes : List Byte) : Transaction :=
  if bytes.take Config.opcodePos = Config.txMagic then
    match bytes.drop Config.opcodePos with
    | opcode :: len :: rest => .command opcode (rest.take len.toNat) true
    | _ => .chunk bytes
  else .chunk bytes

/-- `buf` at its reset value, so that a frame placed at `rx` is cut by the next `FEED` as it stands. -/
def State.clearBuf (s : State) : State := { s with session := s.session.map fun σ => σ.setBuf [] }

/-- Places the transaction of `bytes` before all others. -/
def State.placeInstr (s : State) (bytes : List Byte) : State :=
  match transactionOf bytes with
  | .command opcode payload written => s.setPending (.command opcode payload written :: s.pending)
  | t => s.clearBuf.setPending (t :: s.pending)

end Sys2Proof.Machine
end

