-- ==== Sys2Proof/Machine/Step.lean ====
section
/-! DEFINITION. One step: the oldest transaction is taken whole (R41, R42). -/

namespace Sys2Proof.Machine

/-- With nothing pending the engine is idle and "holds its state" (R177, R180). -/
def step (s : State) : Host.Outcome State Fault Refusal :=
  match s.pending with
  | [] => .next s
  | t :: rest => perform t (s.setPending rest)

/-- `s` with the instruction whose bits are `w` placed where `step` takes its next one (log 1). -/
def State.withFetchWord (s : State) (nbits w : Nat) : State := s.placeInstr (layoutWord nbits w)

end Sys2Proof.Machine
end

