-- ==== Sys2Proof/Machine/Serial.lean ====
section
/-! DEFINITION. The "reference realisation with bounded storage" of R89: a byte-serial machine that emits the frames `FEED` emits and
forgets junk. It is "informative, not the architecture": `step` does not use it, statements compare `FEED` with it. -/

namespace Sys2Proof.Machine

/-- The registers of R89: the header-match count `k`, and the frame register's written part; its length is the byte count `n`. -/
structure Serial where
  k  : Nat
  fr : List Byte
  deriving DecidableEq, Repr

/-- Nothing matched, nothing collected. -/
def Serial.initial : Serial := ⟨0, []⟩

/-- `push(b)` (R89): the next registers, and the frame emitted if `b` is its 300th byte. -/
def Serial.push (m : Serial) (b : Byte) : Serial × List (List Byte) :=
  match m.fr with
  | [] =>
    if Config.rxMagic[m.k]? = some b then
      if m.k + 1 = Config.headerLen then (⟨0, Config.rxMagic⟩, []) else (⟨m.k + 1, []⟩, [])
    else if Config.rxMagic[0]? = some b then (⟨1, []⟩, [])
    else (⟨0, []⟩, [])
  | c :: cs =>
    if (c :: cs).length + 1 = Config.frameLen then (⟨0, []⟩, [c :: cs ++ [b]])
    else (⟨m.k, c :: cs ++ [b]⟩, [])

/-- `push` of every byte in turn: the last registers and all frames emitted, in order. -/
def Serial.pushAll : Serial → List Byte → Serial × List (List Byte)
  | m, [] => (m, [])
  | m, b :: bs => (((m.push b).1.pushAll bs).1, (m.push b).2 ++ ((m.push b).1.pushAll bs).2)

end Sys2Proof.Machine
end

