-- ==== Sys2Proof/Safety.lean ====
section
/-! DEFINITION. The terms claims are stated in: the state invariants of 10_state.md section 6 and what the events of a run must look
like, the Frame Reassembler as a pure function of its byte stream, and the pieces of the event sequence. -/

namespace Sys2Proof.Machine

/-! ## The Frame Reassembler alone -/

/-- The loop of R76 without its dispatch: the frames it cuts, in order, and the residual buffer. -/
def cutFrames : Nat → List Byte → List (List Byte) × List Byte
  | 0, buf => ([], buf)
  | fuel + 1, buf =>
    match findHeader buf with
    | none => ([], buf)
    | some 0 =>
      if buf.length < Config.frameLen then ([], buf)
      else (buf.take Config.frameLen :: (cutFrames fuel (buf.drop Config.frameLen)).1, (cutFrames fuel (buf.drop Config.frameLen)).2)
    | some (i + 1) => cutFrames fuel (buf.drop (i + 1))

/-- What FR makes of a byte sequence. -/
def reassemble (buf : List Byte) : List (List Byte) × List Byte := cutFrames (buf.length + 1) buf

/-- `FEED` of several chunks, one after the other. -/
def feedAll : List (List Byte) → State → Result
  | [], s => .next s
  | c :: cs, s => andThen (feed c s) (feedAll cs)

/-- The frames of a list, each received in turn. -/
def receiveAll : List (List Byte) → State → Result
  | [], s => .next s
  | f :: fs, s => andThen (runFrame f s) (receiveAll fs)

/-! ## Invariants -/

/-- Rest states (a) and (b) of R83: no header in `buf`, or a header at index 0 and fewer than 300 bytes (R24). -/
def atRest (buf : List Byte) : Bool :=
  decide (findHeader buf = none) || (decide (findHeader buf = some 0) && decide (buf.length < Config.frameLen))

/-- A credential register: `unknown`, or at most `most` bytes with no `0x00` among them (R17). -/
def credentialOk (most : Nat) (c : Option (List Byte)) : Bool :=
  match c with
  | none => true
  | some bs => decide (bs.length ≤ most) && bs.all (fun b => b != 0x00#8)

/-- The invariants of one session: R24, R25 and R17. -/
def Session.ok (σ : Session) : Bool :=
  withinCap σ.buf.length && atRest σ.buf && decide (σ.variantOffset ∈ Config.variantOffsets) 
    && credentialOk Config.parameters.devicePasscode.width σ.devicePasscode
    && credentialOk Config.parameters.passcode.width σ.passcode
    && credentialOk Config.parameters.setupPasscode.width σ.setupPasscode

/-- The set of R62: the 20-byte sequences `ENCODE` can produce. -/
def commandFrame (c : List Byte) : Bool :=
  decide (c.length = Config.cmdLen) && decide (slice c 0 Config.opcodePos = Config.txMagic)
    && (match slice c Config.lenPos Config.payloadPos with
        | [len] => decide (len.toNat ≤ Config.maxPayload)
            && decide (slice c (Config.payloadPos + len.toNat) Config.ckPos = List.replicate (Config.maxPayload - len.toNat) 0x00#8)
        | _ => false)
    && decide (slice c Config.ckPos Config.cmdLen = [checksum (slice c 0 Config.ckPos)])

/-- What every event of a run looks like: frames are InboundFrames (R31, R80), `tx` carries command frames (R62), `credentials` carries
values the registers can hold (R17). -/
def Event.ok : Event → Bool
  | .frame f => f.wellFormed
  | .statusUpdate _ _ _ _ _ _ => true
  | .credentials dp pc sp => 
    credentialOk Config.parameters.devicePasscode.width dp && credentialOk Config.parameters.passcode.width pc
      && credentialOk Config.parameters.setupPasscode.width sp
  | .tx c => commandFrame c

/-- The machine's invariant: the session's (R24, R25, R17), the events', and that the engine and the host have a session together (R143,
R180, R182). -/
def State.ok (s : State) : Bool :=
  (match s.session with
    | none => true
    | some σ => σ.ok)
    && s.events.all Event.ok && decide (s.session.isSome = s.host.isSome)

/-! ## Pieces of the event sequence -/

/-- The event is a `tx` (the transmit side, R46). -/
def Event.isTx : Event → Bool
  | .tx _ => true
  | _ => false

/-- The event is a `frame`. -/
def Event.isFrame : Event → Bool
  | .frame _ => true
  | _ => false

end Sys2Proof.Machine

namespace Sys2Proof

/-- The instruction is a row of format `TX20` (the others are of format `RX300`). -/
def Instr.isCommand : Instr → Bool
  | .cmdAuthorize _ | .cmdSetCharge _ | .cmdSetDischarge _ | .cmdRefresh | .cmdInfo | .cmdRaw _ _ => true
  | .frmStatus _ | .frmInfo _ | .frmOther _ _ => false

end Sys2Proof

namespace Sys2Proof.Machine

/-- A transaction that can write the engine's registers: connect, teardown, and a chunk (R153). -/
def Transaction.writesEngine : Transaction → Bool
  | .connect _ | .teardown | .chunk _ => true
  | .command _ _ _ | .checksum _ | .call _ | .hostMove _ _ | .poll _ | .elapse _ | .linkFailure => false

/-- A transaction that begins or ends a session. -/
def Transaction.isLink : Transaction → Bool
  | .connect _ | .teardown => true
  | .chunk _ | .command _ _ _ | .checksum _ | .call _ | .hostMove _ _ | .poll _ | .elapse _ | .linkFailure => false

end Sys2Proof.Machine
end

