-- ==== Sys2Proof/Certificates/Slice0/Obligations.lean ====
section
/-! DEFINITION. The statements about the engine, from the numbered rules of spec/. A docstring names the rule, and says where a clause is
the spec's own choice (an entry D<n> of 92_eei_decisions.md), an inference the spec marks [derived], or the model's own (a log entry). -/

open Sys2Proof Sys2Proof.Machine

/-! ## Encodings -/

/-- Every well-formed instruction of all nine rows is read back from its bytes (R62, [derived]; R50, R55). -/
def Obligations.DecodeInvertsEncode : Prop :=
  ∀ i : Instr, i.wellFormed = true → decode (encode i) = .ok i

/-- What decodes is well formed, and its encoding is the bytes it was read from: no two words name one instruction (R62, [derived]). -/
def Obligations.EncodeInvertsDecode : Prop :=
  ∀ (bytes : List Byte) (i : Instr), decode bytes = .ok i → i.wellFormed = true ∧ encode i = bytes

/-- R62 ([derived]): the 20-byte sequences `ENCODE` builds are exactly the set of its text, and the operands are recovered from them. -/
def Obligations.CommandFramesAreEncodeOutputs : Prop :=
  (∀ (opcode : Byte) (payload : List Byte), payload.length ≤ 13 →
    commandFrame (buildCommand opcode payload) = true ∧
    slice (buildCommand opcode payload) 4 5 = [opcode] ∧
    slice (buildCommand opcode payload) 5 6 = [BitVec.ofNat 8 payload.length] ∧
    slice (buildCommand opcode payload) 6 (6 + payload.length) = payload) ∧
  (∀ c : List Byte, commandFrame c = true →
    ∃ (opcode : Byte) (payload : List Byte), payload.length ≤ 13 ∧ buildCommand opcode payload = c)

/-- R62 ([derived]): `ENCODE` is injective on its legal operands. -/
def Obligations.EncodeIsInjective : Prop :=
  ∀ (opcode opcode' : Byte) (payload payload' : List Byte), payload.length ≤ 13 → payload'.length ≤ 13 →
    buildCommand opcode payload = buildCommand opcode' payload' → opcode = opcode' ∧ payload = payload'

/-- R66: the first row of the opcode table, in file order, whose mask matches names the instruction the decoder reads. -/
def Obligations.DecodedRowIsFirstMatch : Prop :=
  ∀ (bytes : List Byte) (i : Instr), decode bytes = .ok i →
    ∃ row, firstRow bytes = some row ∧ row.mnemonic = i.mnemonic ∧ row.length = bytes.length

/-- A few words written out from the spec's encodings (V-CE-1, V-CE-3, V-CE-6, V-CE-7, V-CE-12; R50) decode to what they stand for. -/
def Obligations.WrittenWordsDecode : Prop :=
  decode [0xAA#8, 0x55#8, 0x90#8, 0xEB#8, 0x96#8, 0#8, 0#8, 0#8, 0#8, 0#8, 0#8, 0#8, 0#8, 0#8, 0#8, 0#8, 0#8, 0#8, 0#8, 0x10#8]
      = .ok .cmdRefresh ∧
  decode [0xAA#8, 0x55#8, 0x90#8, 0xEB#8, 0x1D#8, 1#8, 1#8, 0#8, 0#8, 0#8, 0#8, 0#8, 0#8, 0#8, 0#8, 0#8, 0#8, 0#8, 0#8, 0x99#8]
      = .ok (.cmdSetCharge 1#8) ∧
  decode [0xAA#8, 0x55#8, 0x90#8, 0xEB#8, 0x1E#8, 1#8, 0#8, 0#8, 0#8, 0#8, 0#8, 0#8, 0#8, 0#8, 0#8, 0#8, 0#8, 0#8, 0#8, 0x99#8]
      = .ok (.cmdSetDischarge 0#8) ∧
  decode [0xAA#8, 0x55#8, 0x90#8, 0xEB#8, 0x05#8, 4#8, 0x31#8, 0x32#8, 0x33#8, 0x34#8, 0#8, 0#8, 0#8, 0#8, 0#8, 0#8, 0#8, 0#8, 0#8,
      0x4D#8] = .ok (.cmdAuthorize [0x31#8, 0x32#8, 0x33#8, 0x34#8]) ∧
  decode [0xAA#8, 0x55#8, 0x90#8, 0xEB#8, 0#8, 0#8, 0#8, 0#8, 0#8, 0#8, 0#8, 0#8, 0#8, 0#8, 0#8, 0#8, 0#8, 0#8, 0#8, 0x7A#8]
      = .ok (.cmdRaw 0#8 []) ∧
  decode ([0x55#8, 0xAA#8, 0xEB#8, 0x90#8, 0x02#8] ++ List.replicate 295 0#8) = .ok (.frmStatus (List.replicate 295 0#8))

/-- The bits of a well-formed instruction, numbered as the opcode table numbers them, are laid out as its bytes and decode to it. -/
def Obligations.TableWordIsEncoding : Prop :=
  ∀ i : Instr, i.wellFormed = true →
    layoutWord (8 * (encode i).length) (leValue (encode i)) = encode i ∧
    decodeTableWord (8 * (encode i).length) (leValue (encode i)) = some i

/-! ## Checksum Codec -/

/-- R70: `CHECKSUM` at its port answers the sum of the bytes, as natural numbers, modulo 256, and nothing else changes. That the
`ck` port is exposed ("may be exposed", R41) is the model's choice (log 32), and so is that it answers outside a session too (log 13). -/
def Obligations.ChecksumIsSumModulo : Prop :=
  ∀ (bytes : List Byte) (rest : List Transaction) (s : State),
    step (s.setPending (.checksum bytes :: rest)) =
      .next { s with pending := rest, answer := .sum (BitVec.ofNat 8 ((bytes.map BitVec.toNat).sum % 256)) }

/-- R71, R72 ([derived]): the 8-bit accumulator gives the same byte, in any order of the bytes; the checksum of a concatenation is the sum
of the checksums; zeros add nothing. -/
def Obligations.ChecksumAccumulatesInAnyOrder : Prop :=
  (∀ s t : List Byte, s.Perm t → checksumAcc s = checksum t) ∧
  (∀ s t : List Byte, checksum (s ++ t) = checksum s + checksum t) ∧
  (∀ (s : List Byte) (n : Nat), checksum (s ++ List.replicate n 0x00#8) = checksum s)

/-! ## Command Encoder -/

/-- R93, R94, R74: every frame an `ENCODE` returns has 20 bytes; its last byte is the checksum of the first 19, with the closed form of R94;
and the checksum of all 20 is twice that byte modulo 256. It is also the one event emitted: R90, and one `tx` per
command is the spec's choice D16 (log 7). -/
def Obligations.ReturnedFrameLengthAndChecksum : Prop :=
  ∀ (opcode : Byte) (payload c : List Byte) (s t : State), runCommand opcode payload s = .next t → t.answer = .cmd c →
    c.length = 20 ∧
    slice c 19 20 = [checksum (slice c 0 19)] ∧
    (checksum (slice c 0 19)).toNat = (0x7A + opcode.toNat + payload.length + (payload.map BitVec.toNat).sum) % 256 ∧
    (checksum c).toNat = (2 * (checksum (slice c 0 19)).toNat) % 256 ∧
    t.events = s.events ++ [.tx c]

/-- Every command of the six `TX20` rows, in a session, answers next: its word is emitted and returned, and nothing else changes (R90,
R97 to R102; the payloads of `CMD.REFRESH` and `CMD.INFO` are the spec's own choice D18). -/
def Obligations.CommandsEmitTheirWord : Prop :=
  ∀ (i : Instr) (s : State), i.isCommand = true → i.wellFormed = true → s.session.isSome = true →
    exec i s = .next { s with events := s.events ++ [.tx (encode i)], answer := .cmd (encode i) }

/-- R98, R99 (payload: D18): the refresh and info frames, byte for byte, in any session state. One `tx` per command is the
spec's choice D16 (log 7), the empty payload D18 (log 11). -/
def Obligations.RefreshAndInfoFrames : Prop :=
  ∀ (s : State), s.session.isSome = true →
    let refresh : List Byte :=
      [0xAA#8, 0x55#8, 0x90#8, 0xEB#8, 0x96#8, 0#8, 0#8, 0#8, 0#8, 0#8, 0#8, 0#8, 0#8, 0#8, 0#8, 0#8, 0#8, 0#8, 0#8, 0x10#8]
    let info : List Byte :=
      [0xAA#8, 0x55#8, 0x90#8, 0xEB#8, 0x97#8, 0#8, 0#8, 0#8, 0#8, 0#8, 0#8, 0#8, 0#8, 0#8, 0#8, 0#8, 0#8, 0#8, 0#8, 0x11#8]
    exec .cmdRefresh s = .next { s with events := s.events ++ [.tx refresh], answer := .cmd refresh } ∧
    exec .cmdInfo s = .next { s with events := s.events ++ [.tx info], answer := .cmd info }

/-- R100, R101: the set frames for every `v`, byte for byte; none is refused (R95, [derived]), and only the two results change. The checksum
for every `v` follows from R57; that exactly one `tx` is emitted is R90, by the spec's choice D16 (log 7). -/
def Obligations.SetFramesForEveryValue : Prop :=
  ∀ (v : Byte) (s : State), s.session.isSome = true →
    let charge : List Byte :=
      [0xAA#8, 0x55#8, 0x90#8, 0xEB#8, 0x1D#8, 1#8, v, 0#8, 0#8, 0#8, 0#8, 0#8, 0#8, 0#8, 0#8, 0#8, 0#8, 0#8, 0#8, 0x98#8 + v]
    let discharge : List Byte :=
      [0xAA#8, 0x55#8, 0x90#8, 0xEB#8, 0x1E#8, 1#8, v, 0#8, 0#8, 0#8, 0#8, 0#8, 0#8, 0#8, 0#8, 0#8, 0#8, 0#8, 0#8, 0x99#8 + v]
    exec (.cmdSetCharge v) s = .next { s with events := s.events ++ [.tx charge], answer := .cmd charge } ∧
    exec (.cmdSetDischarge v) s = .next { s with events := s.events ++ [.tx discharge], answer := .cmd discharge }

/-- R97, R102, R90: `CMD.AUTHORIZE` and `CMD.RAW` with at most 13 payload bytes build header, opcode, length, the payload bytes unchanged,
zeros and the sum; only the two results change. That a passcode's bytes are sent unchanged is the spec's choice D14 (log 10), one `tx` per
command its choice D16 (log 7). -/
def Obligations.PayloadCommandsBuildFields : Prop :=
  ∀ (i : Instr) (opcode : Byte) (payload : List Byte) (s : State),
    (i = .cmdRaw opcode payload ∨ (i = .cmdAuthorize payload ∧ opcode = 0x05#8)) → s.session.isSome = true → payload.length ≤ 13 →
    ∃ c, exec i s = .next { s with events := s.events ++ [.tx c], answer := .cmd c } ∧
      c = [0xAA#8, 0x55#8, 0x90#8, 0xEB#8, opcode, BitVec.ofNat 8 payload.length] ++ payload
            ++ List.replicate (13 - payload.length) 0x00#8
            ++ [0x7A#8 + opcode + BitVec.ofNat 8 payload.length + checksum payload]

/-- R91: `ENCODE` with more than 13 payload bytes is refused on the length alone, whatever the opcode; no event, and nothing to write, so
the transport's answer `written` has no effect. That the refusal is an answer in a next state is the model's form of it (log 6); its name and having no effect are the spec's choice D7. -/
def Obligations.OverlongCommandIsRefused : Prop :=
  ∀ (opcode : Byte) (payload : List Byte) (written : Bool) (rest : List Transaction) (s : State), s.session.isSome = true →
    13 < payload.length →
    step (s.setPending (.command opcode payload written :: rest)) =
      .next { s with pending := rest, answer := .rejected .payloadTooLong } ∧
    exec (.cmdAuthorize payload) s = .next { s with answer := .rejected .payloadTooLong } ∧
    exec (.cmdRaw opcode payload) s = .next { s with answer := .rejected .payloadTooLong }

/-- R161 ("Raised by `ENCODE` and by nothing else, when and only when `len(payload) > 13`"; D7): a step answers the refusal only for a
command transaction, or a host procedure's `send`, with more than 13 payload bytes. That the refusal is an answer in a next state is the
model's form of it (log 6). -/
def Obligations.RejectOnlyByOverlongEncode : Prop :=
  ∀ (s t : State) (u : Transaction) (rest : List Transaction) (r : Reject),
    s.pending = u :: rest → step s = .next t → t.answer = .rejected r →
    ∃ (opcode : Byte) (payload : List Byte), 13 < payload.length ∧
      ((∃ written, u = .command opcode payload written) ∨
        ∃ k w h acts, u = .hostMove k w ∧ s.host = some h ∧ h.tasks[k]? = some ⟨0, .send opcode payload :: acts⟩)

/-- R95 ([derived]): no opcode and no payload value is refused: in a session a command answers its frame exactly when the payload fits.
That the command with an over-long payload answers next all the same, with the refusal as its answer, is the model's form of it (log 6),
where R171 counts the refusal beside the next state. -/
def Obligations.CommandAnswersFrameIffFits : Prop :=
  ∀ (opcode : Byte) (payload : List Byte) (s : State), s.session.isSome = true →
    ∃ t, runCommand opcode payload s = .next t ∧ ((∃ c, t.answer = .cmd c) ↔ payload.length ≤ 13) ∧
      (13 < payload.length → t.answer = .rejected .payloadTooLong)

/-- R96 ([derived]): `ENCODE` is a pure function of its operands: any two session states give the same answer and the same events, and every
register, and the host, is left as it was. Over-long payloads are among the operands: that their refusal is an answer in a next state is
the model's form of it (log 6). -/
def Obligations.EncodeIgnoresState : Prop :=
  ∀ (opcode : Byte) (payload : List Byte) (s s' : State), s.session.isSome = true → s'.session.isSome = true →
    ∃ t t' es, runCommand opcode payload s = .next t ∧ runCommand opcode payload s' = .next t' ∧
      t.answer = t'.answer ∧ t.events = s.events ++ es ∧ t'.events = s'.events ++ es ∧
      t.session = s.session ∧ t'.session = s'.session ∧ t.host = s.host ∧ t.pending = s.pending

/-! ## Field Decoder -/

/-- R105: an unsigned little-endian 32-bit field. -/
def Obligations.FieldIsUnsignedLittleEndian : Prop :=
  ∀ (frame : List Byte) (p : Nat) (b0 b1 b2 b3 : Byte),
    frame[p]? = some b0 → frame[p + 1]? = some b1 → frame[p + 2]? = some b2 → frame[p + 3]? = some b3 →
    (rdU32 frame p).toNat = b0.toNat + 256 * b1.toNat + 65536 * b2.toNat + 16777216 * b3.toNat

/-- R106: a Boolean field is true exactly when its byte is `0x01`. -/
def Obligations.BooleanFieldIsOne : Prop :=
  ∀ (frame : List Byte) (p : Nat) (b : Byte), frame[p]? = some b → (rdBool frame p = true ↔ b = 0x01#8)

/-- R107: a string is the bytes of its range up to, and not including, the first null, and never beyond the range. -/
def Obligations.StringStopsAtFirstNull : Prop :=
  ∀ (frame : List Byte) (lo hi : Nat), lo ≤ hi → hi ≤ frame.length →
    ∃ j, lo ≤ j ∧ j ≤ hi ∧ rdCstr frame lo hi = slice frame lo j ∧
      (∀ k, lo ≤ k → k < j → frame[k]? ≠ some 0x00#8) ∧ (j < hi → frame[j]? = some 0x00#8) ∧
      (rdCstr frame lo hi).length ≤ hi - lo ∧ 0x00#8 ∉ rdCstr frame lo hi

/-- R109, R111 ([derived]: with a legal offset the bound check never fails): a status frame in a session answers next; all six registers hold
the fields at nominal offset plus `variantOffset`; `frame` and one `status_update` (D16) are emitted; nothing else changes. -/
def Obligations.StatusFrameWritesAllSix : Prop :=
  ∀ (body : List Byte) (s : State) (σ : Session), s.session = some σ → body.length = 295 → σ.variantOffset ∈ [0, 16, 32] →
    let f : List Byte := [0x55#8, 0xAA#8, 0xEB#8, 0x90#8, 0x02#8] ++ body
    let off := σ.variantOffset
    exec (.frmStatus body) s =
      .next { s with
        session := some { σ with
          totalVoltage := some (rdU32 f (118 + off))
          remainingCapacity := some (rdU32 f (142 + off))
          nominalCapacity := some (rdU32 f (146 + off))
          cycleCount := some (rdU32 f (150 + off))
          chargeEnabled := some (rdBool f (166 + off))
          dischargeEnabled := some (rdBool f (167 + off)) }
        events := s.events ++
          [.frame ⟨0x02#8, f⟩,
           .statusUpdate (some (rdU32 f (118 + off))) (some (rdU32 f (142 + off))) (some (rdU32 f (146 + off)))
             (some (rdU32 f (150 + off))) (some (rdBool f (166 + off))) (some (rdBool f (167 + off)))] }

/-- R110: a field is read exactly when all its bytes are inside the frame; otherwise its register keeps the value it had, and the others are
still read. For every offset, the unreachable ones too, and the operation completes. The reading of the bound is the spec's choice D27
(log 27), and that one `status_update` with all six registers is emitted is its choice D16 (R111, log 7). -/
def Obligations.UncontainedFieldKeepsLastValue : Prop :=
  ∀ (f : InboundFrame) (s : State) (σ : Session), s.session = some σ → f.wellFormed = true → f.kind = 0x02#8 →
    let off := σ.variantOffset
    ∃ τ : Session, decodeStatusOp f s = .next { s with session := some τ, events := s.events ++ [τ.statusEvent] } ∧
      τ = { σ with
        totalVoltage := if 118 + off + 4 ≤ 300 then some (rdU32 f.payload (118 + off)) else σ.totalVoltage
        remainingCapacity := if 142 + off + 4 ≤ 300 then some (rdU32 f.payload (142 + off)) else σ.remainingCapacity
        nominalCapacity := if 146 + off + 4 ≤ 300 then some (rdU32 f.payload (146 + off)) else σ.nominalCapacity
        cycleCount := if 150 + off + 4 ≤ 300 then some (rdU32 f.payload (150 + off)) else σ.cycleCount
        chargeEnabled := if 166 + off + 1 ≤ 300 then some (rdBool f.payload (166 + off)) else σ.chargeEnabled
        dischargeEnabled := if 167 + off + 1 ≤ 300 then some (rdBool f.payload (167 + off)) else σ.dischargeEnabled }

/-- R115: the source's round trip. For each legal offset, `39 30 00 00` at `118 + variantOffset` leaves `totalVoltage = 12345`, whose value at
the scale of its row is 12.345. And the scales of R108: ×0.001 for the first three fields, ×1 for the cycle count, as rational values of the
raw integer (R15, the spec's choice D15, log 26). -/
def Obligations.TotalVoltageRoundTrip : Prop :=
  (∀ (body : List Byte) (s : State) (σ : Session), s.session = some σ → body.length = 295 → σ.variantOffset ∈ [0, 16, 32] →
    slice ([0x55#8, 0xAA#8, 0xEB#8, 0x90#8, 0x02#8] ++ body) (118 + σ.variantOffset) (122 + σ.variantOffset)
      = [0x39#8, 0x30#8, 0x00#8, 0x00#8] →
    ∃ t τ raw, exec (.frmStatus body) s = .next t ∧ t.session = some τ ∧ τ.totalVoltage = some raw ∧
      raw.toNat = 12345 ∧ StatusField.totalVoltage.value raw = some ((12345 : Rat) / 1000)) ∧
  (∀ raw : Word32,
    StatusField.totalVoltage.value raw = some ((raw.toNat : Rat) / 1000) ∧ StatusField.remainingCapacity.value raw = some ((raw.toNat : Rat) / 1000) ∧
    StatusField.nominalCapacity.value raw = some ((raw.toNat : Rat) / 1000) ∧ StatusField.cycleCount.value raw = some (raw.toNat : Rat))

/-! ## Variant Detector -/

/-- R120, R124, R126, R127: an info frame in a session answers next; `variantOffset` and the three credentials are written, `frame` and one
`credentials` (D16) are emitted, nothing else changes. Names and termination of the passcodes are the spec's choice D13. -/
def Obligations.InfoFrameWritesVariantAndCredentials : Prop :=
  ∀ (body : List Byte) (s : State) (σ : Session), s.session = some σ → body.length = 295 →
    let f : List Byte := [0x55#8, 0xAA#8, 0xEB#8, 0x90#8, 0x03#8] ++ body
    exec (.frmInfo body) s =
      .next { s with
        session := some { σ with
          variantOffset := selectVariant (rdCstr f 6 22) (rdCstr f 30 38)
          devicePasscode := some (rdCstr f 62 78)
          passcode := some (rdCstr f 97 102)
          setupPasscode := some (rdCstr f 118 134) }
        events := s.events ++
          [.frame ⟨0x03#8, f⟩, .credentials (some (rdCstr f 62 78)) (some (rdCstr f 97 102)) (some (rdCstr f 118 134))] }

/-- R123: the decision table, first match wins, with `starts_with` and `contains` as prefix and infix of byte sequences (R122: the spec's
choice D14, log 10); and the two `starts_with` literals over the vendor cannot both hold. -/
def Obligations.VariantDecisionTable : Prop :=
  ∀ vendor firmware : List Byte,
    let jkBd : List Byte := [0x4A#8, 0x4B#8, 0x5F#8, 0x42#8, 0x44#8]
    let eleven : List Byte := [0x31#8, 0x31#8, 0x2E#8]
    let jkB2a : List Byte := [0x4A#8, 0x4B#8, 0x5F#8, 0x42#8, 0x32#8, 0x41#8]
    let s32 : List Byte := [0x33#8, 0x32#8, 0x53#8]
    ((jkBd <+: vendor ∨ eleven <+: firmware) → selectVariant vendor firmware = 32) ∧
    (¬ (jkBd <+: vendor ∨ eleven <+: firmware) → (jkB2a <+: vendor ∨ s32 <:+: vendor) → selectVariant vendor firmware = 16) ∧
    (¬ (jkBd <+: vendor ∨ eleven <+: firmware) → ¬ (jkB2a <+: vendor ∨ s32 <:+: vendor) → selectVariant vendor firmware = 0) ∧
    ¬ (jkBd <+: vendor ∧ jkB2a <+: vendor)

/-- The examples of R125 and V-VD-1 to V-VD-7: what the table selects for them. -/
def Obligations.VariantExamples : Prop :=
  selectVariant [0x4A#8, 0x4B#8, 0x5F#8, 0x42#8, 0x44#8, 0x36#8, 0x2E#8, 0x30#8] [] = 32 ∧
  selectVariant [0x4A#8, 0x4B#8, 0x5F#8, 0x42#8, 0x32#8, 0x41#8, 0x33#8, 0x32#8, 0x53#8] [] = 16 ∧
  selectVariant [0x4A#8, 0x4B#8, 0x5F#8, 0x42#8, 0x31#8, 0x41#8, 0x32#8, 0x34#8, 0x53#8] [] = 0 ∧
  selectVariant [0x4A#8, 0x4B#8, 0x5F#8, 0x42#8, 0x31#8, 0x41#8, 0x32#8, 0x34#8, 0x53#8] [0x31#8, 0x31#8, 0x2E#8, 0x58#8, 0x57#8] = 32 ∧
  selectVariant [0x58#8, 0x58#8, 0x33#8, 0x32#8, 0x53#8] [0x31#8, 0x2E#8, 0x30#8] = 16

/-! ## Dispatch -/

/-- R138: a frame of any other kind answers next, emits its `frame` event (one per frame: D16, log 7), and changes nothing else. -/
def Obligations.OtherFramePassesUndecoded : Prop :=
  ∀ (kind : Byte) (body : List Byte) (s : State), s.session.isSome = true → body.length = 295 → kind ≠ 0x02#8 → kind ≠ 0x03#8 →
    exec (.frmOther kind body) s =
      .next { s with events := s.events ++ [.frame ⟨kind, [0x55#8, 0xAA#8, 0xEB#8, 0x90#8] ++ kind :: body⟩] }

/-- R135 (the order of emission and dispatch, D17): what FR runs for a frame it has cut is: emit `frame(f[4], f)`, then `DECODE_STATUS` for
kind `0x02`, `DETECT_VARIANT` for kind `0x03`, nothing for any other. -/
def Obligations.CutFrameIsEmittedThenDispatched : Prop :=
  ∀ (f : List Byte) (kind : Byte) (s : State), s.session.isSome = true → f.length = 300 →
    f.take 4 = [0x55#8, 0xAA#8, 0xEB#8, 0x90#8] → f[4]? = some kind →
    runFrame f s =
      (if kind = 0x02#8 then decodeStatusOp ⟨kind, f⟩ (s.emit (.frame ⟨kind, f⟩))
       else if kind = 0x03#8 then detectVariantOp ⟨kind, f⟩ (s.emit (.frame ⟨kind, f⟩))
       else .next (s.emit (.frame ⟨kind, f⟩)))

/-- R112, R128 (the refusal is the spec's choice D17): each decoder refuses an InboundFrame of another kind. -/
def Obligations.DecodersRefuseOtherKinds : Prop :=
  ∀ (f : InboundFrame) (s : State), s.session.isSome = true → f.wellFormed = true →
    (f.kind ≠ 0x02#8 → decodeStatusOp f s = .refused .wrongKind) ∧
    (f.kind ≠ 0x03#8 → detectVariantOp f s = .refused .wrongKind)

/-! ## Frame Reassembler -/

/-- R77: no header in the buffer: the buffer is kept as it is, nothing is dropped and nothing is emitted. -/
def Obligations.FeedWithoutHeaderKeepsBuffer : Prop :=
  ∀ (chunk : List Byte) (s : State) (σ : Session), s.session = some σ → findHeader (σ.buf ++ chunk) = none →
    feed chunk s = .next { s with session := some { σ with buf := σ.buf ++ chunk }, answer := .done }

/-- R79: a header at index 0 and fewer than 300 bytes: FEED waits with the buffer as it is, whatever bytes 4 and on hold (a further header
among them starts nothing). -/
def Obligations.FeedWaitsForPartialFrame : Prop :=
  ∀ (chunk : List Byte) (s : State) (σ : Session), s.session = some σ →
    (σ.buf ++ chunk).take 4 = [0x55#8, 0xAA#8, 0xEB#8, 0x90#8] → (σ.buf ++ chunk).length < 300 →
    feed chunk s = .next { s with session := some { σ with buf := σ.buf ++ chunk }, answer := .done }

/-- R78: a header at offset `i > 0`: the `i` bytes before it are gone without any event, and the loop goes on as if they had never come. -/
def Obligations.FeedDropsBytesBeforeHeader : Prop :=
  ∀ (chunk : List Byte) (s : State) (σ : Session) (i : Nat), s.session = some σ → findHeader (σ.buf ++ chunk) = some i → 0 < i →
    feed chunk s = feed [] { s with session := some { σ with buf := (σ.buf ++ chunk).drop i } } ∧
    ((σ.buf ++ chunk).drop i).take 4 = [0x55#8, 0xAA#8, 0xEB#8, 0x90#8]

/-- R80: a header at index 0 and at least 300 bytes: the frame of the first 300 is emitted with `kind = byte[4]` and dispatched, it leaves the
buffer, and the search is repeated on the remainder. That it is dispatched after the cut and before the next search is the order of R43 and
R76, the spec's choice D17 (log 24). -/
def Obligations.FeedEmitsWholeFrame : Prop :=
  ∀ (chunk f rest : List Byte) (kind : Byte) (s : State) (σ : Session), s.session = some σ → σ.buf ++ chunk = f ++ rest →
    f.length = 300 → f.take 4 = [0x55#8, 0xAA#8, 0xEB#8, 0x90#8] → f[4]? = some kind →
    feed chunk s =
      andThen
        (dispatchOp ⟨kind, f⟩
          { s with session := some { σ with buf := rest }, answer := .done, events := s.events ++ [.frame ⟨kind, f⟩] })
        (feed [])

/-- R81 ([derived], D26): `find` returns the lowest index of an occurrence of the header, and none exactly when there is none. -/
def Obligations.FindReturnsFirstHeader : Prop :=
  ∀ buf : List Byte,
    (∀ i, findHeader buf = some i ↔
      slice buf i (i + 4) = [0x55#8, 0xAA#8, 0xEB#8, 0x90#8] ∧
      ∀ j, j < i → slice buf j (j + 4) ≠ [0x55#8, 0xAA#8, 0xEB#8, 0x90#8]) ∧
    (findHeader buf = none ↔ ∀ j, slice buf j (j + 4) ≠ [0x55#8, 0xAA#8, 0xEB#8, 0x90#8])

/-- R43 (D17): FEED is the frames FR cuts from `buf ++ chunk`, received one after the other, with FR's residual buffer left. -/
def Obligations.FeedReceivesCutFramesInOrder : Prop :=
  ∀ (chunk : List Byte) (s : State) (σ : Session), s.session = some σ →
    feed chunk s =
      receiveAll (reassemble (σ.buf ++ chunk)).1
        { s with session := some { σ with buf := (reassemble (σ.buf ++ chunk)).2 }, answer := .done }

/-- R82 ([derived]): FEED ends and emits at most `floor(len(buf ++ chunk) / 300)` frames. -/
def Obligations.FeedEndsWithBoundedOutput : Prop :=
  ∀ (chunk : List Byte) (s : State) (σ : Session), s.session = some σ →
    ∃ t es, feed chunk s = .next t ∧ t.events = s.events ++ es ∧ es.countP Event.isFrame ≤ (σ.buf ++ chunk).length / 300

/-- R83, R24 ([derived]): whatever the buffer held before, after a FEED it is in one of the two rest states, never both. -/
def Obligations.FeedLeavesRestState : Prop :=
  ∀ (chunk : List Byte) (s : State), s.session.isSome = true →
    ∃ t τ, feed chunk s = .next t ∧ t.session = some τ ∧
      (findHeader τ.buf = none ∨ (findHeader τ.buf = some 0 ∧ 4 ≤ τ.buf.length ∧ τ.buf.length < 300))

/-- R84: chunking invariance. Any cutting of a byte sequence into one or more consecutive chunks, empty ones allowed, gives the same state as
feeding it whole: the same events in the same order, the same registers, the same buffer. The one-byte form is the source's; the general
form and the final buffer are [derived]. -/
def Obligations.ChunkingInvariance : Prop :=
  ∀ (chunks : List (List Byte)) (s : State), s.session.isSome = true → chunks ≠ [] → feedAll chunks s = feed chunks.flatten s

/-- R85 ([derived]): FEED of no bytes at rest changes nothing and emits nothing. -/
def Obligations.FeedNothingAtRest : Prop :=
  ∀ (s : State) (σ : Session), s.session = some σ → atRest σ.buf = true → feed [] s = .next { s with answer := .done }

/-- R87 ([derived]): a truncated frame of `n` bytes followed by a whole one gives one frame made of the `n` bytes and the head of the
successor; the successor's last `n` bytes, if they hold no header, stay as junk. -/
def Obligations.TruncatedFrameSwallowsSuccessor : Prop :=
  ∀ (a b : List Byte) (s : State) (σ : Session), s.session = some σ → σ.buf = [] →
    a.take 4 = [0x55#8, 0xAA#8, 0xEB#8, 0x90#8] → a.length < 300 → b.length = 300 →
    findHeader (b.drop (300 - a.length)) = none →
    feed (a ++ b) s =
      runFrame (a ++ b.take (300 - a.length))
        { s with session := some { σ with buf := b.drop (300 - a.length) }, answer := .done }

/-- R88 ([derived]): of junk without a header only the last three bytes can ever matter to the frames emitted afterwards. -/
def Obligations.OnlyLastThreeJunkBytesMatter : Prop :=
  ∀ junk later : List Byte, findHeader junk = none →
    (reassemble (junk ++ later)).1 = (reassemble (junk.drop (junk.length - 3) ++ later)).1

/-- R89 ([derived]): the byte-serial machine with bounded storage emits the frames FR emits; while it collects, its frame register is FR's
buffer; while it hunts, FR's buffer holds no header and `k` is the length of its longest suffix that is a prefix of the header. -/
def Obligations.SerialMachineRefinesReassembler : Prop :=
  ∀ bytes : List Byte,
    let m := (Serial.initial.pushAll bytes).1
    let residual := (reassemble bytes).2
    (Serial.initial.pushAll bytes).2 = (reassemble bytes).1 ∧
    (m.fr ≠ [] → m.fr = residual ∧ 4 ≤ m.fr.length ∧ m.fr.length < 300) ∧
    (m.fr = [] → findHeader residual = none ∧ m.k ≤ 3 ∧ [0x55#8, 0xAA#8, 0xEB#8, 0x90#8].take m.k <:+ residual ∧
      ∀ k ≤ 3, [0x55#8, 0xAA#8, 0xEB#8, 0x90#8].take k <:+ residual → k ≤ m.k)

/-! ## Sessions -/

/-- R180, R184: a connect, in a live session or outside one, leaves every element of the engine at its reset value, and emits no event. The
values are the spec's (variantOffset: its own choice D9; the unknown ones: D10, D11). -/
def Obligations.ConnectResetsEngine : Prop :=
  ∀ (deviceId : Nat) (rest : List Transaction) (s : State),
    ∃ t, step (s.setPending (.connect deviceId :: rest)) = .next t ∧
      t.session = some
        { buf := [], variantOffset := 0, totalVoltage := none, remainingCapacity := none, nominalCapacity := none, cycleCount := none,
          chargeEnabled := none, dischargeEnabled := none, devicePasscode := none, passcode := none, setupPasscode := none } ∧
      t.events = s.events ∧ t.pending = rest

/-- R182: a teardown discards the whole engine state, with the host's record, and emits no event; a reconnect is the same whatever session
went before. That a teardown answers outside a session too is the model's choice (log 13), and so is what becomes of the host's record with
its procedures (R143, log 18). -/
def Obligations.TeardownDiscardsEngine : Prop :=
  (∀ (rest : List Transaction) (s : State),
    ∃ t, step (s.setPending (.teardown :: rest)) = .next t ∧ t.session = none ∧ t.host = none ∧ t.events = s.events ∧
      t.pending = rest) ∧
  (∀ (deviceId : Nat) (s : State) (σ : Session),
    andThen (perform .teardown s) (perform (.connect deviceId)) =
      andThen (perform .teardown { s with session := some σ }) (perform (.connect deviceId)))

/-- R183 (the refusals are the spec's choice D24): outside a session no instruction, no FEED, no command and no decoder has a step; CHECKSUM
still answers (log 13; that its port is exposed, log 32). An over-long command is refused so too: the session is tested before the length,
the model's choice (log 13). -/
def Obligations.NoStepOutsideSession : Prop :=
  ∀ s : State, s.session = none →
    (∀ i : Instr, exec i s = .refused .outsideSession) ∧
    (∀ chunk : List Byte, perform (.chunk chunk) s = .refused .outsideSession) ∧
    (∀ (opcode : Byte) (payload : List Byte) (written : Bool), perform (.command opcode payload written) s = .refused .outsideSession) ∧
    (∀ f : InboundFrame, dispatchOp f s = .refused .outsideSession ∧ decodeStatusOp f s = .refused .outsideSession ∧
      detectVariantOp f s = .refused .outsideSession) ∧
    (∀ bytes : List Byte, ∃ t, perform (.checksum bytes) s = .next t ∧ t.answer = .sum (checksum bytes))

/-- R171, R196: in a live session with its host record every step answers next, whatever the transaction: the engine has no fault and no
stuck state. An over-long ENCODE counts among these steps: its refusal is an answer in a next state (log 6), where R171 counts it beside the
next state. -/
def Obligations.LiveStepAlwaysCompletes : Prop :=
  ∀ s : State, s.session.isSome = true → s.host.isSome = true → ∃ t, step s = .next t

/-! ## The whole machine -/

/-- R24, R25, R17 and the form of the events: every step keeps the machine's invariant, from every state that has it. -/
def Obligations.StepKeepsInvariant : Prop :=
  ∀ s t : State, s.ok = true → step s = .next t → t.ok = true

/-- The reset state has the invariant. -/
def Obligations.ResetHasInvariant : Prop := State.reset.ok = true

/-- A step runs the instruction that is placed where it takes its next one: a command as it is (its operands come at the `enc` port,
and its write succeeds); a frame
with `buf` empty, as a chunk at the `rx` port, whose FEED answers nothing more (the placing is the model's own, log 1). -/
def Obligations.StepRunsPlacedInstruction : Prop :=
  ∀ (i : Instr) (s : State), i.wellFormed = true → s.session.isSome = true →
    step (s.placeInstr (encode i)) = exec i (if i.isCommand = true then s else s.clearBuf.setAnswer .done)

/-- The next command transaction whose payload fits runs the instruction its own 20 bytes decode to, and that instruction is well formed
(R62, R64, R66). Nothing more happens when its write succeeds; when the write fails the transport's answer reaches the host, and the host
propagates it to its caller, once (R103, R140, R166; the lists that record this, and the report whatever the opcode, are the model's, log
28). -/
def Obligations.CommandRunsItsWord : Prop :=
  ∀ (opcode : Byte) (payload : List Byte) (written : Bool) (rest : List Transaction) (s : State), payload.length ≤ 13 →
    ∃ i : Instr, decode (buildCommand opcode payload) = .ok i ∧ i.wellFormed = true ∧
      step (s.setPending (.command opcode payload written :: rest)) =
        andThen (exec i (s.setPending rest)) fun t =>
          .next (if written then t
            else { t with
              writeFailures := t.writeFailures ++ [buildCommand opcode payload]
              reports := t.reports ++ [.transportError] })

/-- R12, R153, R96: only a connect, a teardown and a chunk can change an engine register; no command and no move of the host does. -/
def Obligations.OnlyLinkAndChunkWriteEngine : Prop :=
  ∀ (s t : State) (u : Transaction) (rest : List Transaction), s.pending = u :: rest → u.writesEngine = false → step s = .next t →
    t.session = s.session

/-- R16: within a session a register that is known stays known; it returns to `unknown` only by RESET or TEARDOWN. -/
def Obligations.KnownRegistersStayKnown : Prop :=
  ∀ (s t : State) (σ : Session) (u : Transaction) (rest : List Transaction), s.pending = u :: rest → u.isLink = false →
    s.session = some σ → step s = .next t →
    ∃ τ, t.session = some τ ∧
      (σ.totalVoltage.isSome → τ.totalVoltage.isSome) ∧ (σ.remainingCapacity.isSome → τ.remainingCapacity.isSome) ∧
      (σ.nominalCapacity.isSome → τ.nominalCapacity.isSome) ∧ (σ.cycleCount.isSome → τ.cycleCount.isSome) ∧
      (σ.chargeEnabled.isSome → τ.chargeEnabled.isSome) ∧ (σ.dischargeEnabled.isSome → τ.dischargeEnabled.isSome) ∧
      (σ.devicePasscode.isSome → τ.devicePasscode.isSome) ∧ (σ.passcode.isSome → τ.passcode.isSome) ∧
      (σ.setupPasscode.isSome → τ.setupPasscode.isSome)

/-- R20: a step only appends to the output event sequence. -/
def Obligations.EventsAreOnlyAppended : Prop :=
  ∀ s t : State, step s = .next t → ∃ es, t.events = s.events ++ es

/-- R46 ([derived]): a command and a chunk may be ordered against each other in either way with the same result on each side.
Over-long payloads are among the commands: that such a command answers next, with the refusal as its answer, is the model's form of it
(log 6). -/
def Obligations.EncodeAndFeedCommute : Prop :=
  ∀ (opcode : Byte) (payload chunk : List Byte) (written : Bool) (s : State), s.session.isSome = true →
    ∃ t u, andThen (perform (.command opcode payload written) s) (perform (.chunk chunk)) = .next t ∧
      andThen (perform (.chunk chunk) s) (perform (.command opcode payload written)) = .next u ∧
      t.session = u.session ∧ t.events.filter Event.isTx = u.events.filter Event.isTx ∧
      t.events.filter (fun e => !e.isTx) = u.events.filter (fun e => !e.isTx) ∧ t.pending = u.pending ∧ t.host = u.host ∧
      t.reports = u.reports ∧ t.writeFailures = u.writeFailures

/-- R44, R139 ([derived]): in one chunk, a status frame behind an info frame is decoded with the offset the info frame selected, one before it
with the offset in force before; each frame's event is directly followed by its decoder's. One event of each kind per frame is the spec's
choice D16 (log 7), the strings of the table exact bytes by its choice D14 (log 10), the order of cutting and dispatch D17 (log 24). -/
def Obligations.NewOffsetIsUsedAtOnce : Prop :=
  ∀ (bi bs : List Byte) (s : State) (σ : Session), s.session = some σ → σ.buf = [] → bi.length = 295 → bs.length = 295 →
    let fi : List Byte := [0x55#8, 0xAA#8, 0xEB#8, 0x90#8, 0x03#8] ++ bi
    let fs : List Byte := [0x55#8, 0xAA#8, 0xEB#8, 0x90#8, 0x02#8] ++ bs
    (∃ τ, perform (.chunk (fi ++ fs)) s = .next { s with
        session := some τ, answer := .done
        events := s.events ++ [.frame ⟨0x03#8, fi⟩, (σ.detectVariant fi).credentialsEvent, .frame ⟨0x02#8, fs⟩, τ.statusEvent] } ∧
      τ = (σ.detectVariant fi).decodeStatus fs ∧
      τ.totalVoltage = some (rdU32 fs (118 + selectVariant (rdCstr fi 6 22) (rdCstr fi 30 38)))) ∧
    (∃ τ, perform (.chunk (fs ++ fi)) s = .next { s with
        session := some τ, answer := .done
        events := s.events ++ [.frame ⟨0x02#8, fs⟩, (σ.decodeStatus fs).statusEvent, .frame ⟨0x03#8, fi⟩, τ.credentialsEvent] } ∧
      τ = (σ.decodeStatus fs).detectVariant fi)

/-! ## The host -/

/-- R142: `authorized` is false at every connect; a teardown destroys the host's record; in between the only step that sets it is a turn of
a procedure whose next action is the end of `authorize`, and no step but a connect or a teardown clears it. The two turns of `authorize`
that move the state do so as R142 draws it; an `authorize` started in another state than `Unauthorized` leaves the state as it is until its
end (the model's choice, log 30). That a teardown answers outside a session too is the model's choice (log 13), that the host's record goes
with its procedures (R143) its choice as to the procedures (log 18), and that a procedure acts once a turn its form (log 28). -/
def Obligations.AuthorizedOnlyByAuthorize : Prop :=
  (∀ (deviceId : Nat) (s : State), ∃ t h, perform (.connect deviceId) s = .next t ∧ t.host = some h ∧ h.authorized = false) ∧
  (∀ s : State, ∃ t, perform .teardown s = .next t ∧ t.host = none) ∧
  (∀ (s t : State) (h h' : HostSession), s.host = some h → h.authorized = false → step s = .next t → t.host = some h' →
    h'.authorized = true →
    ∃ k w rest acts, s.pending = .hostMove k w :: rest ∧ h.tasks[k]? = some ⟨0, .enterAuthorized :: acts⟩) ∧
  (∀ (s t : State) (h : HostSession), s.host = some h → h.authorized = true → step s = .next t →
    (∀ u rest, s.pending = u :: rest → u.isLink = false) → ∃ h', t.host = some h' ∧ h'.authorized = true) ∧
  (∀ (s : State) (h : HostSession) (k : Nat) (w : Bool) (a : HostAct) (acts : List HostAct), s.session.isSome = true → s.host = some h →
    h.tasks[k]? = some ⟨0, a :: acts⟩ → a = .enterAuthorizing ∨ a = .enterAuthorized →
    ∃ t h', perform (.hostMove k w) s = .next t ∧ t.host = some h' ∧ h'.tasks[k]? = some ⟨0, acts⟩ ∧
      (a = .enterAuthorizing → h.csState = .unauthorized → h'.csState = .authorizing) ∧
      (a = .enterAuthorizing → h.csState ≠ .unauthorized → h'.csState = h.csState) ∧
      (a = .enterAuthorized → h'.csState = .authorized))

/-- R144, R145, R150: `sendControl` starts a procedure that authorizes if needed, sends the control command, waits 500 ms and asks for a
refresh; its first action puts the four actions of `authorize` in front exactly when the host is not authorized and a setup passcode is
known. A call of `authorize` starts those four with the passcode, or with a free one while it is `unknown` (log 31), whatever the host's
state is: that a host already Authorized or Authorizing sends and waits again is the model's choice (log 30). A turn that sends runs
`ENCODE` on its operands, and the procedure goes on when the write succeeds; a write that fails reaches the host, which reports it once
(R103, R140, R166; log 28). A turn that waits starts the wait; while some of it is left,
a turn does nothing; time that passes counts it down (R151, R197; turns and the passing of time are the model's form, logs 19, 28). No
engine register changes. The refresh's empty payload is
the spec's choice D18 (log 11), and that the passcode register's bytes are sent unchanged its choice D14 (log 10). Where a new procedure
stands is the model's choice (log 18), and so is that the passcode is read when `authorize` starts (log 29). -/
def Obligations.SendControlAuthorizesFirst : Prop :=
  ∀ (s : State) (σ : Session) (h : HostSession), s.session = some σ → s.host = some h →
    (∀ (reg : ControlReg) (value : Bool), ∃ t h', perform (.call (.sendControl reg value)) s = .next t ∧ t.host = some h' ∧
      t.session = s.session ∧ t.events = s.events ∧
      h'.tasks = h.tasks ++ [⟨0, [.authorizeIfNeeded,
        .send (if reg = .charge then 0x1D#8 else 0x1E#8) [if value then 0x01#8 else 0x00#8], .wait 500, .send 0x96#8 []]⟩]) ∧
    (∃ t h' p, perform (.call .authorize) s = .next t ∧ t.host = some h' ∧ t.session = s.session ∧ t.events = s.events ∧
      h'.tasks = h.tasks ++ [⟨0, [.enterAuthorizing, .send 0x05#8 p, .wait 500, .enterAuthorized]⟩] ∧
      (σ.setupPasscode.isSome = true → σ.setupPasscode = some p)) ∧
    (∀ (k : Nat) (w : Bool) (acts : List HostAct), h.tasks[k]? = some ⟨0, .authorizeIfNeeded :: acts⟩ →
      ∃ t h', perform (.hostMove k w) s = .next t ∧ t.host = some h' ∧ t.session = s.session ∧ t.events = s.events ∧
        (∀ p, h.authorized = false → σ.setupPasscode = some p →
          h'.tasks[k]? = some ⟨0, [.enterAuthorizing, .send 0x05#8 p, .wait 500, .enterAuthorized] ++ acts⟩) ∧
        (h.authorized = true ∨ σ.setupPasscode = none → h'.tasks[k]? = some ⟨0, acts⟩)) ∧
    (∀ (k : Nat) (w : Bool) (opcode : Byte) (payload : List Byte) (acts : List HostAct),
      h.tasks[k]? = some ⟨0, .send opcode payload :: acts⟩ → payload.length ≤ 13 →
      ∃ t h', perform (.hostMove k w) s = .next t ∧ t.host = some h' ∧ t.session = s.session ∧
        t.events = s.events ++ [.tx (buildCommand opcode payload)] ∧
        (w = true → h'.tasks[k]? = some ⟨0, acts⟩ ∧ t.reports = s.reports ∧ t.writeFailures = s.writeFailures) ∧
        (w = false → t.reports = s.reports ++ [.transportError] ∧
          t.writeFailures = s.writeFailures ++ [buildCommand opcode payload])) ∧
    (∀ (k : Nat) (w : Bool) (ms : Nat) (acts : List HostAct), h.tasks[k]? = some ⟨0, .wait ms :: acts⟩ →
      ∃ t h', perform (.hostMove k w) s = .next t ∧ t.host = some h' ∧ t.session = s.session ∧ t.events = s.events ∧
        h'.tasks[k]? = some ⟨ms, acts⟩) ∧
    (∀ (k : Nat) (w : Bool) (n : Nat) (acts : List HostAct), h.tasks[k]? = some ⟨n, acts⟩ → 0 < n →
      perform (.hostMove k w) s = .next { s with answer := .done }) ∧
    (∀ (k ms n : Nat) (acts : List HostAct), h.tasks[k]? = some ⟨n, acts⟩ →
      ∃ t h', perform (.elapse ms) s = .next t ∧ t.host = some h' ∧ t.session = s.session ∧ t.events = s.events ∧
        h'.tasks[k]? = some ⟨n - ms, acts⟩)

/-- R146, R147, R150 (`unknown` matches no target: [derived], log 21): a call of `sendRobust` starts the first of 3 attempts, behind the
procedures in flight (log 18); the compare at an attempt's end reads `chargeEnabled` or `dischargeEnabled` as it stands, reports true on a
match, starts the next attempt while some are left, and reports false after the last, with no engine register and no event changed. The empty payload
of an attempt's two refreshes is the spec's choice D18 (log 11). -/
def Obligations.RobustComparesObservedStatus : Prop :=
  ∀ (s : State) (σ : Session) (h : HostSession) (reg : ControlReg) (target : Bool), s.session = some σ → s.host = some h →
    let attempt (n : Nat) : List HostAct :=
      [.authorizeIfNeeded, .send (if reg = .charge then 0x1D#8 else 0x1E#8) [if target then 0x01#8 else 0x00#8], .wait 500,
       .send 0x96#8 [], .wait 3500, .send 0x96#8 [], .wait 1000, .compare reg target n]
    let observed : Option Bool :=
      match reg with
      | .charge => σ.chargeEnabled
      | .discharge => σ.dischargeEnabled
    (∃ t h', perform (.call (.sendRobust reg target)) s = .next t ∧ t.host = some h' ∧ t.session = s.session ∧ t.events = s.events ∧
      t.reports = s.reports ∧ h'.tasks = h.tasks ++ [⟨0, attempt 3⟩]) ∧
    (∀ (k n : Nat) (w : Bool) (acts : List HostAct), h.tasks[k]? = some ⟨0, .compare reg target n :: acts⟩ →
      ∃ t h', perform (.hostMove k w) s = .next t ∧ t.host = some h' ∧ t.session = s.session ∧ t.events = s.events ∧
        (observed = some target → t.reports = s.reports ++ [.robust true] ∧ h'.tasks[k]? = some ⟨0, acts⟩) ∧
        (observed ≠ some target → 1 < n → t.reports = s.reports ∧ h'.tasks[k]? = some ⟨0, attempt (n - 1) ++ acts⟩) ∧
        (observed ≠ some target → n ≤ 1 → t.reports = s.reports ++ [.robust false] ∧ h'.tasks[k]? = some ⟨0, acts⟩))

/-- R148: a poll that is due emits one refresh frame and the 2000 ms start again; one that is not due emits nothing. A failed
write of the refresh reaches the host and goes to no caller (R140, R166: its users see those "during authorization/control"; log 28). The
refresh's empty payload is the spec's choice D18 (log 11), the form of the timer the model's (log 19). -/
def Obligations.PollSendsRefreshWhenDue : Prop :=
  ∀ (s : State) (h : HostSession) (written : Bool), s.session.isSome = true → s.host = some h →
    (h.pollDue = 0 → perform (.poll written) s = .next { s with
      host := some { h with pollDue := 2000 }
      events := s.events ++ [.tx (encode .cmdRefresh)], answer := .cmd (encode .cmdRefresh)
      writeFailures := if written then s.writeFailures else s.writeFailures ++ [encode .cmdRefresh] }) ∧
    (0 < h.pollDue → perform (.poll written) s = .next { s with answer := .done })
end

