-- ==== Sys2Proof/Laws/Bytes.lean ====
section
/-! SUPPORT. The small lemmas of the byte-sequence functions. -/

namespace Sys2Proof

@[simp] theorem slice_length (s : List Byte) (lo hi : Nat) : (slice s lo hi).length = min (hi - lo) (s.length - lo) := by
  simp [slice]

theorem slice_zero (s : List Byte) (n : Nat) : slice s 0 n = s.take n := by simp [slice]

@[simp] theorem byteSum_nil : byteSum [] = 0 := rfl
@[simp] theorem byteSum_cons (b : Byte) (bs : List Byte) : byteSum (b :: bs) = b.toNat + byteSum bs := rfl

@[simp] theorem byteSum_append (s t : List Byte) : byteSum (s ++ t) = byteSum s + byteSum t := by
  induction s with
  | nil => simp
  | cons b bs ih => simp [ih]; omega

@[simp] theorem byteSum_zeros (n : Nat) : byteSum (List.replicate n 0x00#8) = 0 := by
  induction n with
  | zero => rfl
  | succ n ih => simp [List.replicate_succ, ih]

theorem checksum_toNat (s : List Byte) : (checksum s).toNat = byteSum s % 256 := by simp [checksum]

@[simp] theorem leValue_nil : leValue [] = 0 := rfl
@[simp] theorem leValue_cons (b : Byte) (bs : List Byte) : leValue (b :: bs) = b.toNat + 256 * leValue bs := rfl

theorem leValue_lt (s : List Byte) : leValue s < 256 ^ s.length := by
  induction s with
  | nil => simp
  | cons b bs ih =>
    have := b.isLt
    simp only [leValue_cons, List.length_cons, Nat.pow_succ]
    omega

/-- An inbound frame with the parameters written out: the kind byte directly follows the header (R50). -/
@[simp] theorem rx300_eq (kind : Byte) (body : List Byte) :
    rx300 kind body = [0x55#8, 0xAA#8, 0xEB#8, 0x90#8] ++ kind :: body := rfl

@[simp] theorem rdUnsigned_four (frame : List Byte) (p : Nat) : rdUnsigned frame p 4 = rdU32 frame p := rfl
@[simp] theorem rdFlag_one (frame : List Byte) (p : Nat) : rdFlag frame p 1 = rdBool frame p := rfl

/-- A one-byte Boolean field compares its byte with `0x01` (R106). -/
theorem rdBool_eq {frame : List Byte} {p : Nat} {b : Byte} (h : frame[p]? = some b) : rdBool frame p = decide (b = 0x01#8) := by
  have hp : p < frame.length := (List.getElem?_eq_some_iff.1 h).1
  have hs : slice frame p (p + 1) = [b] := by
    obtain ⟨_, rfl⟩ := List.getElem?_eq_some_iff.1 h
    simp [slice, List.drop_eq_getElem_cons hp, -List.getElem_cons_drop]
  simp [rdBool, rdFlag, hs, BitVec.toNat_eq]

/-! ## find -/

@[simp] theorem findHeader_nil : findHeader [] = none := rfl

theorem findHeader_cons (b : Byte) (bs : List Byte) :
    findHeader (b :: bs) = if (b :: bs).take 4 = Config.rxMagic then some 0 else (findHeader bs).map (· + 1) := rfl

/-- A header at index 0 is found there. -/
theorem findHeader_eq_zero {bs : List Byte} : findHeader bs = some 0 ↔ bs.take 4 = Config.rxMagic := by
  cases bs with
  | nil => simp
  | cons b bs =>
    rw [findHeader_cons]
    split <;> simp_all

/-- A header found at `i` lies wholly in the sequence. -/
theorem findHeader_lt {bs : List Byte} {i : Nat} (h : findHeader bs = some i) : i + 4 ≤ bs.length := by
  induction bs generalizing i with
  | nil => simp at h
  | cons b bs ih =>
    rw [findHeader_cons] at h
    split at h
    · rename_i hm
      have := congrArg List.length hm
      simp at h this
      simp
      omega
    · cases hf : findHeader bs with
      | none => simp [hf] at h
      | some j =>
        simp [hf] at h
        have := ih hf
        simp
        omega

/-- Dropping what precedes the first header leaves it at index 0 (R78). -/
theorem findHeader_drop {bs : List Byte} {i : Nat} (h : findHeader bs = some i) : findHeader (bs.drop i) = some 0 := by
  induction bs generalizing i with
  | nil => simp at h
  | cons b bs ih =>
    have h' := h
    rw [findHeader_cons] at h
    split at h
    · cases h
      simpa using h'
    · cases hf : findHeader bs with
      | none => simp [hf] at h
      | some j =>
        simp [hf] at h
        subst h
        simpa using ih hf

/-- Bytes appended behind a header do not move the first one. -/
theorem findHeader_append {a : List Byte} {i : Nat} (h : findHeader a = some i) (b : List Byte) :
    findHeader (a ++ b) = some i := by
  induction a generalizing i with
  | nil => simp at h
  | cons x a ih =>
    have hl := findHeader_lt h
    rw [findHeader_cons] at h
    rw [List.cons_append, findHeader_cons]
    split at h
    · rename_i hm
      cases h
      have h4 : 4 ≤ (x :: a).length := by omega
      have : List.take 4 (x :: (a ++ b)) = List.take 4 (x :: a) := by
        rw [← List.cons_append, List.take_append_of_le_length h4]
      rw [this, if_pos hm]
    · rename_i hm
      cases hf : findHeader a with
      | none => simp [hf] at h
      | some j =>
        simp [hf] at h
        subst h
        have hj := findHeader_lt hf
        have h4 : 4 ≤ (x :: a).length := by simp; omega
        have : List.take 4 (x :: (a ++ b)) = List.take 4 (x :: a) := by
          rw [← List.cons_append, List.take_append_of_le_length h4]
        rw [this, if_neg hm, ih hf]
        rfl

end Sys2Proof
end

