-- ==== Sys2Proof/Laws/State.lean ====
section
/-! SUPPORT. One lemma per field per update of the state, so that no proof unfolds a record update. -/

namespace Sys2Proof.Machine

@[simp] theorem State.setSession_session (s : State) (σ : Session) : (s.setSession σ).session = some σ := rfl
@[simp] theorem State.setSession_pending (s : State) (σ : Session) : (s.setSession σ).pending = s.pending := rfl
@[simp] theorem State.setSession_events (s : State) (σ : Session) : (s.setSession σ).events = s.events := rfl
@[simp] theorem State.setSession_answer (s : State) (σ : Session) : (s.setSession σ).answer = s.answer := rfl
@[simp] theorem State.setSession_host (s : State) (σ : Session) : (s.setSession σ).host = s.host := rfl
@[simp] theorem State.setSession_reports (s : State) (σ : Session) : (s.setSession σ).reports = s.reports := rfl
@[simp] theorem State.setSession_writeFailures (s : State) (σ : Session) : (s.setSession σ).writeFailures = s.writeFailures := rfl
@[simp] theorem State.setSession_freeIx (s : State) (σ : Session) : (s.setSession σ).freeIx = s.freeIx := rfl

@[simp] theorem State.dropSession_session (s : State) : (s.dropSession).session = none := rfl
@[simp] theorem State.dropSession_pending (s : State) : (s.dropSession).pending = s.pending := rfl
@[simp] theorem State.dropSession_events (s : State) : (s.dropSession).events = s.events := rfl
@[simp] theorem State.dropSession_answer (s : State) : (s.dropSession).answer = s.answer := rfl
@[simp] theorem State.dropSession_host (s : State) : (s.dropSession).host = s.host := rfl
@[simp] theorem State.dropSession_reports (s : State) : (s.dropSession).reports = s.reports := rfl
@[simp] theorem State.dropSession_writeFailures (s : State) : (s.dropSession).writeFailures = s.writeFailures := rfl
@[simp] theorem State.dropSession_freeIx (s : State) : (s.dropSession).freeIx = s.freeIx := rfl

@[simp] theorem State.emit_session (s : State) (e : Event) : (s.emit e).session = s.session := rfl
@[simp] theorem State.emit_pending (s : State) (e : Event) : (s.emit e).pending = s.pending := rfl
@[simp] theorem State.emit_events (s : State) (e : Event) : (s.emit e).events = s.events ++ [e] := rfl
@[simp] theorem State.emit_answer (s : State) (e : Event) : (s.emit e).answer = s.answer := rfl
@[simp] theorem State.emit_host (s : State) (e : Event) : (s.emit e).host = s.host := rfl
@[simp] theorem State.emit_reports (s : State) (e : Event) : (s.emit e).reports = s.reports := rfl
@[simp] theorem State.emit_writeFailures (s : State) (e : Event) : (s.emit e).writeFailures = s.writeFailures := rfl
@[simp] theorem State.emit_freeIx (s : State) (e : Event) : (s.emit e).freeIx = s.freeIx := rfl

@[simp] theorem State.setAnswer_session (s : State) (a : Answer) : (s.setAnswer a).session = s.session := rfl
@[simp] theorem State.setAnswer_pending (s : State) (a : Answer) : (s.setAnswer a).pending = s.pending := rfl
@[simp] theorem State.setAnswer_events (s : State) (a : Answer) : (s.setAnswer a).events = s.events := rfl
@[simp] theorem State.setAnswer_answer (s : State) (a : Answer) : (s.setAnswer a).answer = a := rfl
@[simp] theorem State.setAnswer_host (s : State) (a : Answer) : (s.setAnswer a).host = s.host := rfl
@[simp] theorem State.setAnswer_reports (s : State) (a : Answer) : (s.setAnswer a).reports = s.reports := rfl
@[simp] theorem State.setAnswer_writeFailures (s : State) (a : Answer) : (s.setAnswer a).writeFailures = s.writeFailures := rfl
@[simp] theorem State.setAnswer_freeIx (s : State) (a : Answer) : (s.setAnswer a).freeIx = s.freeIx := rfl

@[simp] theorem State.setPending_session (s : State) (p : List Transaction) : (s.setPending p).session = s.session := rfl
@[simp] theorem State.setPending_pending (s : State) (p : List Transaction) : (s.setPending p).pending = p := rfl
@[simp] theorem State.setPending_events (s : State) (p : List Transaction) : (s.setPending p).events = s.events := rfl
@[simp] theorem State.setPending_answer (s : State) (p : List Transaction) : (s.setPending p).answer = s.answer := rfl
@[simp] theorem State.setPending_host (s : State) (p : List Transaction) : (s.setPending p).host = s.host := rfl
@[simp] theorem State.setPending_reports (s : State) (p : List Transaction) : (s.setPending p).reports = s.reports := rfl
@[simp] theorem State.setPending_writeFailures (s : State) (p : List Transaction) : (s.setPending p).writeFailures = s.writeFailures := rfl
@[simp] theorem State.setPending_freeIx (s : State) (p : List Transaction) : (s.setPending p).freeIx = s.freeIx := rfl

@[simp] theorem State.setHost_session (s : State) (h : HostSession) : (s.setHost h).session = s.session := rfl
@[simp] theorem State.setHost_pending (s : State) (h : HostSession) : (s.setHost h).pending = s.pending := rfl
@[simp] theorem State.setHost_events (s : State) (h : HostSession) : (s.setHost h).events = s.events := rfl
@[simp] theorem State.setHost_answer (s : State) (h : HostSession) : (s.setHost h).answer = s.answer := rfl
@[simp] theorem State.setHost_host (s : State) (h : HostSession) : (s.setHost h).host = some h := rfl
@[simp] theorem State.setHost_reports (s : State) (h : HostSession) : (s.setHost h).reports = s.reports := rfl
@[simp] theorem State.setHost_writeFailures (s : State) (h : HostSession) : (s.setHost h).writeFailures = s.writeFailures := rfl
@[simp] theorem State.setHost_freeIx (s : State) (h : HostSession) : (s.setHost h).freeIx = s.freeIx := rfl

@[simp] theorem State.dropHost_session (s : State) : (s.dropHost).session = s.session := rfl
@[simp] theorem State.dropHost_pending (s : State) : (s.dropHost).pending = s.pending := rfl
@[simp] theorem State.dropHost_events (s : State) : (s.dropHost).events = s.events := rfl
@[simp] theorem State.dropHost_answer (s : State) : (s.dropHost).answer = s.answer := rfl
@[simp] theorem State.dropHost_host (s : State) : (s.dropHost).host = none := rfl
@[simp] theorem State.dropHost_reports (s : State) : (s.dropHost).reports = s.reports := rfl
@[simp] theorem State.dropHost_writeFailures (s : State) : (s.dropHost).writeFailures = s.writeFailures := rfl
@[simp] theorem State.dropHost_freeIx (s : State) : (s.dropHost).freeIx = s.freeIx := rfl

@[simp] theorem State.report_session (s : State) (r : HostReport) : (s.report r).session = s.session := rfl
@[simp] theorem State.report_pending (s : State) (r : HostReport) : (s.report r).pending = s.pending := rfl
@[simp] theorem State.report_events (s : State) (r : HostReport) : (s.report r).events = s.events := rfl
@[simp] theorem State.report_answer (s : State) (r : HostReport) : (s.report r).answer = s.answer := rfl
@[simp] theorem State.report_host (s : State) (r : HostReport) : (s.report r).host = s.host := rfl
@[simp] theorem State.report_reports (s : State) (r : HostReport) : (s.report r).reports = s.reports ++ [r] := rfl
@[simp] theorem State.report_writeFailures (s : State) (r : HostReport) : (s.report r).writeFailures = s.writeFailures := rfl
@[simp] theorem State.report_freeIx (s : State) (r : HostReport) : (s.report r).freeIx = s.freeIx := rfl

@[simp] theorem State.failWrite_session (s : State) (c : List Byte) : (s.failWrite c).session = s.session := rfl
@[simp] theorem State.failWrite_pending (s : State) (c : List Byte) : (s.failWrite c).pending = s.pending := rfl
@[simp] theorem State.failWrite_events (s : State) (c : List Byte) : (s.failWrite c).events = s.events := rfl
@[simp] theorem State.failWrite_answer (s : State) (c : List Byte) : (s.failWrite c).answer = s.answer := rfl
@[simp] theorem State.failWrite_host (s : State) (c : List Byte) : (s.failWrite c).host = s.host := rfl
@[simp] theorem State.failWrite_reports (s : State) (c : List Byte) : (s.failWrite c).reports = s.reports := rfl
@[simp] theorem State.failWrite_freeIx (s : State) (c : List Byte) : (s.failWrite c).freeIx = s.freeIx := rfl
@[simp] theorem State.failWrite_writeFailures (s : State) (c : List Byte) : (s.failWrite c).writeFailures = s.writeFailures ++ [c] := rfl

@[simp] theorem State.nextFree_session (s : State) : (s.nextFree).session = s.session := rfl
@[simp] theorem State.nextFree_pending (s : State) : (s.nextFree).pending = s.pending := rfl
@[simp] theorem State.nextFree_events (s : State) : (s.nextFree).events = s.events := rfl
@[simp] theorem State.nextFree_answer (s : State) : (s.nextFree).answer = s.answer := rfl
@[simp] theorem State.nextFree_host (s : State) : (s.nextFree).host = s.host := rfl
@[simp] theorem State.nextFree_reports (s : State) : (s.nextFree).reports = s.reports := rfl
@[simp] theorem State.nextFree_writeFailures (s : State) : (s.nextFree).writeFailures = s.writeFailures := rfl
@[simp] theorem State.nextFree_freeIx (s : State) : (s.nextFree).freeIx = s.freeIx + 1 := rfl

@[simp] theorem State.clearBuf_session (s : State) : (s.clearBuf).session = s.session.map fun σ => σ.setBuf [] := rfl
@[simp] theorem State.clearBuf_pending (s : State) : (s.clearBuf).pending = s.pending := rfl
@[simp] theorem State.clearBuf_events (s : State) : (s.clearBuf).events = s.events := rfl
@[simp] theorem State.clearBuf_answer (s : State) : (s.clearBuf).answer = s.answer := rfl
@[simp] theorem State.clearBuf_host (s : State) : (s.clearBuf).host = s.host := rfl
@[simp] theorem State.clearBuf_reports (s : State) : (s.clearBuf).reports = s.reports := rfl
@[simp] theorem State.clearBuf_writeFailures (s : State) : (s.clearBuf).writeFailures = s.writeFailures := rfl
@[simp] theorem State.clearBuf_freeIx (s : State) : (s.clearBuf).freeIx = s.freeIx := rfl

@[simp] theorem Session.setBuf_buf (σ : Session) (b : List Byte) : (σ.setBuf b).buf = b := rfl
@[simp] theorem Session.setBuf_variantOffset (σ : Session) (b : List Byte) : (σ.setBuf b).variantOffset = σ.variantOffset := rfl
@[simp] theorem Session.setBuf_totalVoltage (σ : Session) (b : List Byte) : (σ.setBuf b).totalVoltage = σ.totalVoltage := rfl
@[simp] theorem Session.setBuf_remainingCapacity (σ : Session) (b : List Byte) : (σ.setBuf b).remainingCapacity = σ.remainingCapacity := rfl
@[simp] theorem Session.setBuf_nominalCapacity (σ : Session) (b : List Byte) : (σ.setBuf b).nominalCapacity = σ.nominalCapacity := rfl
@[simp] theorem Session.setBuf_cycleCount (σ : Session) (b : List Byte) : (σ.setBuf b).cycleCount = σ.cycleCount := rfl
@[simp] theorem Session.setBuf_chargeEnabled (σ : Session) (b : List Byte) : (σ.setBuf b).chargeEnabled = σ.chargeEnabled := rfl
@[simp] theorem Session.setBuf_dischargeEnabled (σ : Session) (b : List Byte) : (σ.setBuf b).dischargeEnabled = σ.dischargeEnabled := rfl
@[simp] theorem Session.setBuf_devicePasscode (σ : Session) (b : List Byte) : (σ.setBuf b).devicePasscode = σ.devicePasscode := rfl
@[simp] theorem Session.setBuf_passcode (σ : Session) (b : List Byte) : (σ.setBuf b).passcode = σ.passcode := rfl
@[simp] theorem Session.setBuf_setupPasscode (σ : Session) (b : List Byte) : (σ.setBuf b).setupPasscode = σ.setupPasscode := rfl

@[simp] theorem Session.detectVariant_buf (frame : List Byte) (σ : Session) :
    (σ.detectVariant frame).buf = σ.buf := rfl
@[simp] theorem Session.detectVariant_variantOffset (frame : List Byte) (σ : Session) :
    (σ.detectVariant frame).variantOffset = selectVariant (vendorOf frame) (firmwareOf frame) := rfl
@[simp] theorem Session.detectVariant_totalVoltage (frame : List Byte) (σ : Session) :
    (σ.detectVariant frame).totalVoltage = σ.totalVoltage := rfl
@[simp] theorem Session.detectVariant_remainingCapacity (frame : List Byte) (σ : Session) :
    (σ.detectVariant frame).remainingCapacity = σ.remainingCapacity := rfl
@[simp] theorem Session.detectVariant_nominalCapacity (frame : List Byte) (σ : Session) :
    (σ.detectVariant frame).nominalCapacity = σ.nominalCapacity := rfl
@[simp] theorem Session.detectVariant_cycleCount (frame : List Byte) (σ : Session) :
    (σ.detectVariant frame).cycleCount = σ.cycleCount := rfl
@[simp] theorem Session.detectVariant_chargeEnabled (frame : List Byte) (σ : Session) :
    (σ.detectVariant frame).chargeEnabled = σ.chargeEnabled := rfl
@[simp] theorem Session.detectVariant_dischargeEnabled (frame : List Byte) (σ : Session) :
    (σ.detectVariant frame).dischargeEnabled = σ.dischargeEnabled := rfl
@[simp] theorem Session.detectVariant_devicePasscode (frame : List Byte) (σ : Session) :
    (σ.detectVariant frame).devicePasscode = some (rdCstr frame 62 78) := rfl
@[simp] theorem Session.detectVariant_passcode (frame : List Byte) (σ : Session) :
    (σ.detectVariant frame).passcode = some (rdCstr frame 97 102) := rfl
@[simp] theorem Session.detectVariant_setupPasscode (frame : List Byte) (σ : Session) :
    (σ.detectVariant frame).setupPasscode = some (rdCstr frame 118 134) := rfl

@[simp] theorem HostSession.setTask_deviceId (h : HostSession) (k : Nat) (t : HostTask) : (h.setTask k t).deviceId = h.deviceId := rfl
@[simp] theorem HostSession.setTask_csState (h : HostSession) (k : Nat) (t : HostTask) : (h.setTask k t).csState = h.csState := rfl
@[simp] theorem HostSession.setTask_pollDue (h : HostSession) (k : Nat) (t : HostTask) : (h.setTask k t).pollDue = h.pollDue := rfl
@[simp] theorem HostSession.setTask_tasks (h : HostSession) (k : Nat) (t : HostTask) : (h.setTask k t).tasks = h.tasks.set k t := rfl

@[simp] theorem HostSession.endTask_deviceId (h : HostSession) (k : Nat) : (h.endTask k).deviceId = h.deviceId := rfl
@[simp] theorem HostSession.endTask_csState (h : HostSession) (k : Nat) : (h.endTask k).csState = h.csState := rfl
@[simp] theorem HostSession.endTask_pollDue (h : HostSession) (k : Nat) : (h.endTask k).pollDue = h.pollDue := rfl
@[simp] theorem HostSession.endTask_tasks (h : HostSession) (k : Nat) : (h.endTask k).tasks = h.tasks.eraseIdx k := rfl

@[simp] theorem HostSession.setCs_deviceId (h : HostSession) (c : CsState) : (h.setCs c).deviceId = h.deviceId := rfl
@[simp] theorem HostSession.setCs_csState (h : HostSession) (c : CsState) : (h.setCs c).csState = c := rfl
@[simp] theorem HostSession.setCs_pollDue (h : HostSession) (c : CsState) : (h.setCs c).pollDue = h.pollDue := rfl
@[simp] theorem HostSession.setCs_tasks (h : HostSession) (c : CsState) : (h.setCs c).tasks = h.tasks := rfl

/-! The transport's answer: only the two lists of the host's side can change, and only on a failure. -/

@[simp] theorem failedBytes_true (s : State) : failedBytes true s = none := by unfold failedBytes; split <;> simp_all
@[simp] theorem noteWrite_true (s : State) : noteWrite true s = s := by simp [noteWrite]
@[simp] theorem reportWrite_true (s : State) : reportWrite true s = s := by simp [reportWrite]

theorem noteWrite_cmd {s : State} {c : List Byte} (h : s.answer = .cmd c) (w : Bool) :
    noteWrite w s = if w then s else s.failWrite c := by cases w <;> simp [noteWrite, failedBytes, h]

theorem reportWrite_cmd {s : State} {c : List Byte} (h : s.answer = .cmd c) (w : Bool) :
    reportWrite w s = if w then s else (s.failWrite c).report .transportError := by cases w <;> simp [reportWrite, failedBytes, h]

theorem reportWrite_rejected {s : State} {r : Reject} (h : s.answer = .rejected r) (w : Bool) : reportWrite w s = s := by
  simp [reportWrite, failedBytes, h]

@[simp] theorem noteWrite_session (w : Bool) (s : State) : (noteWrite w s).session = s.session := by unfold noteWrite; split <;> rfl
@[simp] theorem noteWrite_pending (w : Bool) (s : State) : (noteWrite w s).pending = s.pending := by unfold noteWrite; split <;> rfl
@[simp] theorem noteWrite_events (w : Bool) (s : State) : (noteWrite w s).events = s.events := by unfold noteWrite; split <;> rfl
@[simp] theorem noteWrite_answer (w : Bool) (s : State) : (noteWrite w s).answer = s.answer := by unfold noteWrite; split <;> rfl
@[simp] theorem noteWrite_host (w : Bool) (s : State) : (noteWrite w s).host = s.host := by unfold noteWrite; split <;> rfl
@[simp] theorem noteWrite_reports (w : Bool) (s : State) : (noteWrite w s).reports = s.reports := by unfold noteWrite; split <;> rfl
@[simp] theorem noteWrite_freeIx (w : Bool) (s : State) : (noteWrite w s).freeIx = s.freeIx := by unfold noteWrite; split <;> rfl

@[simp] theorem reportWrite_session (w : Bool) (s : State) : (reportWrite w s).session = s.session := by unfold reportWrite; split <;> rfl
@[simp] theorem reportWrite_pending (w : Bool) (s : State) : (reportWrite w s).pending = s.pending := by unfold reportWrite; split <;> rfl
@[simp] theorem reportWrite_events (w : Bool) (s : State) : (reportWrite w s).events = s.events := by unfold reportWrite; split <;> rfl
@[simp] theorem reportWrite_answer (w : Bool) (s : State) : (reportWrite w s).answer = s.answer := by unfold reportWrite; split <;> rfl
@[simp] theorem reportWrite_host (w : Bool) (s : State) : (reportWrite w s).host = s.host := by unfold reportWrite; split <;> rfl
@[simp] theorem reportWrite_freeIx (w : Bool) (s : State) : (reportWrite w s).freeIx = s.freeIx := by unfold reportWrite; split <;> rfl

@[simp] theorem andThen_next (s : State) (k : State → Result) : andThen (.next s) k = k s := rfl
@[simp] theorem andThen_fault (r : Fault) (k : State → Result) : andThen (.fault r) k = .fault r := rfl
@[simp] theorem andThen_refused (r : Refusal) (k : State → Result) : andThen (.refused r) k = .refused r := rfl

/-- The engine has no fault (R171). -/
theorem Fault.elim_any (r : Fault) (P : Prop) : P := by cases r

theorem andThen_eq_next {o : Result} {k : State → Result} {t : State} (h : andThen o k = .next t) :
    ∃ u, o = .next u ∧ k u = .next t := by
  cases o with
  | next u => exact ⟨u, rfl, h⟩
  | fault r => cases r
  | refused r => cases h

theorem andThen_assoc (o : Result) (k l : State → Result) :
    andThen (andThen o k) l = andThen o fun s => andThen (k s) l := by
  cases o <;> rfl

theorem inSession_some {s : State} {σ : Session} (h : s.session = some σ) (k : Session → Result) : inSession s k = k σ := by
  simp [inSession, h]

theorem inSession_none {s : State} (h : s.session = none) (k : Session → Result) : inSession s k = .refused .outsideSession := by
  simp [inSession, h]

/-- An operation that acts on the engine state answers next only in a session. -/
theorem inSession_eq_next {s t : State} {k : Session → Result} (h : inSession s k = .next t) :
    ∃ σ, s.session = some σ ∧ k σ = .next t := by
  unfold inSession at h
  split at h
  · cases h
  · exact ⟨_, ‹_›, h⟩

end Sys2Proof.Machine
end

