-- ==== Sys2Proof/Laws/Ops.lean ====
section
/-! SUPPORT. What each shared operation can do, said once: `ENCODE`, the decoders, `DISPATCH`, and the running of one cut frame. -/

namespace Sys2Proof.Machine

/-- The capacity of `buf` is unbounded (R11): `FEED` never raises `bufferFull`. -/
@[simp] theorem withinCap_true (n : Nat) : withinCap n = true := rfl

/-! ## ENCODE -/

/-- Bytes 0 to 18 of a command frame with the parameters written out (R90). -/
def commandFields (opcode : Byte) (payload : List Byte) : List Byte :=
  [0xAA#8, 0x55#8, 0x90#8, 0xEB#8, opcode, BitVec.ofNat 8 payload.length] ++ payload ++ List.replicate (13 - payload.length) 0x00#8

theorem commandFields_length (opcode : Byte) {payload : List Byte} (h : payload.length ≤ 13) :
    (commandFields opcode payload).length = 19 := by
  simp [commandFields]; omega

/-- The frame `ENCODE` builds, the parameters written out: the 19 bytes and their sum (R90, R94). -/
theorem buildCommand_eq (opcode : Byte) {payload : List Byte} (h : payload.length ≤ 13) :
    buildCommand opcode payload = commandFields opcode payload ++ [checksum (commandFields opcode payload)] := by
  have hs : slice (commandFields opcode payload) 0 19 = commandFields opcode payload := by
    rw [slice_zero, List.take_of_length_le (by rw [commandFields_length opcode h])]
  exact congrArg (fun x => commandFields opcode payload ++ [checksum x]) hs

/-- The conditions of R62 with the parameters written out. -/
theorem decodeCommand_cons (opcode len : Byte) (rest : List Byte) :
    decodeCommand (opcode :: len :: rest) =
      if rest.length ≠ 14 then .error .badLength
      else if 13 < len.toNat then .error .payloadLength
      else if slice rest len.toNat 13 ≠ List.replicate (13 - len.toNat) 0x00#8 then .error .padding
      else if rest.drop 13 ≠ [checksum ([0xAA#8, 0x55#8, 0x90#8, 0xEB#8] ++ opcode :: len :: rest.take 13)] then .error .checksum
      else .ok (nameCommand opcode (rest.take len.toNat)) := rfl

/-- The decoder with the parameters written out: the header selects the format. -/
theorem decode_eq (bytes : List Byte) :
    decode bytes =
      if bytes.take 4 = [0xAA#8, 0x55#8, 0x90#8, 0xEB#8] then decodeCommand (bytes.drop 4)
      else if bytes.take 4 = [0x55#8, 0xAA#8, 0xEB#8, 0x90#8] then decodeFrame (bytes.drop 4)
      else .error .badMagic := rfl

@[simp] theorem decodeFrame_nil : decodeFrame [] = .error .badLength := rfl

/-- The byte behind the inbound header is the kind, and the frame has 295 more (R50, R52). -/
theorem decodeFrame_cons (kind : Byte) (body : List Byte) :
    decodeFrame (kind :: body) = if body.length ≠ 295 then .error .badLength else .ok (nameFrame kind body) := rfl

/-- The layout of a table word with the parameters written out. -/
theorem layoutWord_eq (nbits w : Nat) :
    layoutWord nbits w =
      if (wordBytes 300 (w % 2 ^ nbits)).take 4 = [0xAA#8, 0x55#8, 0x90#8, 0xEB#8] then (wordBytes 300 (w % 2 ^ nbits)).take 20
      else wordBytes 300 (w % 2 ^ nbits) := rfl

/-- Bytes 0 to 18 of an encoded command are those `ENCODE` builds (R55, R90). -/
theorem txFields_eq (opcode : Byte) (payload : List Byte) : txFields opcode payload = commandFields opcode payload := by
  simp [txFields, commandFields]; omega

/-- The encoder writes the frame `ENCODE` builds. -/
theorem tx20_eq (opcode : Byte) {payload : List Byte} (h : payload.length ≤ 13) : tx20 opcode payload = buildCommand opcode payload := by
  rw [buildCommand_eq opcode h, tx20, txFields_eq]

theorem encodeOp_fits {s : State} {σ : Session} (hs : s.session = some σ) (opcode : Byte) {payload : List Byte}
    (h : payload.length ≤ 13) :
    encodeOp opcode payload s =
      .next ((s.emit (.tx (buildCommand opcode payload))).setAnswer (.cmd (buildCommand opcode payload))) := by
  have : payloadTooLong payload = false := by simp [payloadTooLong]; omega
  simp [encodeOp, inSession_some hs, this]

theorem encodeOp_tooLong {s : State} {σ : Session} (hs : s.session = some σ) (opcode : Byte) {payload : List Byte}
    (h : 13 < payload.length) : encodeOp opcode payload s = .next (s.setAnswer (.rejected .payloadTooLong)) := by
  have : payloadTooLong payload = true := by simp [payloadTooLong]; omega
  simp [encodeOp, inSession_some hs, this, raiseReject]

/-- Every way `ENCODE` answers next. -/
theorem encodeOp_cases {opcode : Byte} {payload : List Byte} {s t : State} (h : encodeOp opcode payload s = .next t) :
    ∃ σ, s.session = some σ ∧
      ((payload.length ≤ 13 ∧
          t = (s.emit (.tx (buildCommand opcode payload))).setAnswer (.cmd (buildCommand opcode payload))) ∨
       (13 < payload.length ∧ t = s.setAnswer (.rejected .payloadTooLong))) := by
  obtain ⟨σ, hs, -⟩ := inSession_eq_next h
  refine ⟨σ, hs, ?_⟩
  by_cases hp : payload.length ≤ 13
  · rw [encodeOp_fits hs opcode hp] at h
    exact .inl ⟨hp, by cases h; rfl⟩
  · rw [encodeOp_tooLong hs opcode (by omega)] at h
    exact .inr ⟨by omega, by cases h; rfl⟩

/-- The command a pair of operands names runs `ENCODE` on them (R64). -/
theorem exec_nameCommand (opcode : Byte) (payload : List Byte) (s : State) :
    exec (nameCommand opcode payload) s = encodeOp opcode payload s := by
  unfold nameCommand
  split
  · subst_vars; rfl
  · split
    · split
      · subst_vars; rfl
      · split
        · subst_vars; rfl
        · rfl
    · split
      · subst_vars; rfl
      · split
        · subst_vars; rfl
        · rfl
    · rfl

/-! ## The decoders -/

@[simp] theorem Session.decodeRow_buf (frame : List Byte) (σ : Session) (r : FieldRow) :
    (σ.decodeRow frame r).buf = σ.buf := by
  unfold Session.decodeRow Session.storeField; split <;> [split; skip] <;> rfl

@[simp] theorem Session.decodeRow_variantOffset (frame : List Byte) (σ : Session) (r : FieldRow) :
    (σ.decodeRow frame r).variantOffset = σ.variantOffset := by
  unfold Session.decodeRow Session.storeField; split <;> [split; skip] <;> rfl

@[simp] theorem Session.decodeRow_devicePasscode (frame : List Byte) (σ : Session) (r : FieldRow) :
    (σ.decodeRow frame r).devicePasscode = σ.devicePasscode := by
  unfold Session.decodeRow Session.storeField; split <;> [split; skip] <;> rfl

@[simp] theorem Session.decodeRow_passcode (frame : List Byte) (σ : Session) (r : FieldRow) :
    (σ.decodeRow frame r).passcode = σ.passcode := by
  unfold Session.decodeRow Session.storeField; split <;> [split; skip] <;> rfl

@[simp] theorem Session.decodeRow_setupPasscode (frame : List Byte) (σ : Session) (r : FieldRow) :
    (σ.decodeRow frame r).setupPasscode = σ.setupPasscode := by
  unfold Session.decodeRow Session.storeField; split <;> [split; skip] <;> rfl

theorem Session.storeField_setBuf (field : StatusField) (frame : List Byte) (p width : Nat) (σ : Session) (b : List Byte) :
    (σ.setBuf b).storeField field frame p width = (σ.storeField field frame p width).setBuf b := by
  cases field <;> rfl

theorem Session.decodeRow_setBuf (frame : List Byte) (σ : Session) (r : FieldRow) (b : List Byte) :
    (σ.setBuf b).decodeRow frame r = (σ.decodeRow frame r).setBuf b := by
  by_cases h : fieldContained r.nominal σ.variantOffset r.width = true
  · have hb : fieldContained r.nominal (σ.setBuf b).variantOffset r.width = true := h
    rw [Session.decodeRow, Session.decodeRow, if_pos h, if_pos hb]
    exact Session.storeField_setBuf r.field frame _ _ σ b
  · have hb : ¬ fieldContained r.nominal (σ.setBuf b).variantOffset r.width = true := h
    rw [Session.decodeRow, Session.decodeRow, if_neg h, if_neg hb]

@[simp] theorem Session.decodeStatus_buf (frame : List Byte) (σ : Session) : (σ.decodeStatus frame).buf = σ.buf := by
  simp [Session.decodeStatus, fieldTable]

@[simp] theorem Session.decodeStatus_variantOffset (frame : List Byte) (σ : Session) :
    (σ.decodeStatus frame).variantOffset = σ.variantOffset := by
  simp [Session.decodeStatus, fieldTable]

@[simp] theorem Session.decodeStatus_devicePasscode (frame : List Byte) (σ : Session) :
    (σ.decodeStatus frame).devicePasscode = σ.devicePasscode := by
  simp [Session.decodeStatus, fieldTable]

@[simp] theorem Session.decodeStatus_passcode (frame : List Byte) (σ : Session) :
    (σ.decodeStatus frame).passcode = σ.passcode := by
  simp [Session.decodeStatus, fieldTable]

@[simp] theorem Session.decodeStatus_setupPasscode (frame : List Byte) (σ : Session) :
    (σ.decodeStatus frame).setupPasscode = σ.setupPasscode := by
  simp [Session.decodeStatus, fieldTable]

theorem Session.decodeStatus_setBuf (frame : List Byte) (σ : Session) (b : List Byte) :
    (σ.setBuf b).decodeStatus frame = (σ.decodeStatus frame).setBuf b := by
  simp [Session.decodeStatus, fieldTable, Session.decodeRow_setBuf]

/-- The offset the variant table selects is legal (R25). -/
theorem selectVariant_legal (vendor firmware : List Byte) : selectVariant vendor firmware ∈ Config.variantOffsets := by
  unfold selectVariant; split <;> [skip; split] <;> simp

/-! ## One frame -/

/-- The registers after one frame has been received (R136 to R138). -/
def Session.afterFrame (f : InboundFrame) (σ : Session) : Session :=
  if f.kind = Config.kindStatus then σ.decodeStatus f.payload
  else if f.kind = Config.kindInfo then σ.detectVariant f.payload
  else σ

/-- The events of one frame, in order (R139). -/
def Session.frameEvents (f : InboundFrame) (σ : Session) : List Event :=
  .frame f ::
    (if f.kind = Config.kindStatus then [(σ.decodeStatus f.payload).statusEvent]
     else if f.kind = Config.kindInfo then [(σ.detectVariant f.payload).credentialsEvent]
     else [])

theorem Session.afterFrame_setBuf (f : InboundFrame) (σ : Session) (b : List Byte) :
    (σ.setBuf b).afterFrame f = (σ.afterFrame f).setBuf b := by
  unfold Session.afterFrame
  split
  · exact σ.decodeStatus_setBuf f.payload b
  · split <;> rfl

@[simp] theorem Session.afterFrame_buf (f : InboundFrame) (σ : Session) : (σ.afterFrame f).buf = σ.buf := by
  unfold Session.afterFrame
  split
  · simp
  · split <;> rfl

theorem Session.frameEvents_setBuf (f : InboundFrame) (σ : Session) (b : List Byte) :
    (σ.setBuf b).frameEvents f = σ.frameEvents f := by
  simp [Session.frameEvents, Session.decodeStatus_setBuf, Session.statusEvent, Session.credentialsEvent]

/-- A session's state after events and registers have been written. -/
def State.received (s : State) (σ : Session) (es : List Event) : State := { s with session := some σ, events := s.events ++ es }

@[simp] theorem State.received_session (s : State) (σ : Session) (es : List Event) : (s.received σ es).session = some σ := rfl
@[simp] theorem State.received_events (s : State) (σ : Session) (es : List Event) :
    (s.received σ es).events = s.events ++ es := rfl
@[simp] theorem State.received_pending (s : State) (σ : Session) (es : List Event) : (s.received σ es).pending = s.pending := rfl
@[simp] theorem State.received_answer (s : State) (σ : Session) (es : List Event) : (s.received σ es).answer = s.answer := rfl
@[simp] theorem State.received_host (s : State) (σ : Session) (es : List Event) : (s.received σ es).host = s.host := rfl
@[simp] theorem State.received_reports (s : State) (σ : Session) (es : List Event) : (s.received σ es).reports = s.reports := rfl
@[simp] theorem State.received_writeFailures (s : State) (σ : Session) (es : List Event) :
    (s.received σ es).writeFailures = s.writeFailures := rfl
@[simp] theorem State.received_freeIx (s : State) (σ : Session) (es : List Event) : (s.received σ es).freeIx = s.freeIx := rfl

theorem State.received_received (s : State) (σ τ : Session) (es fs : List Event) :
    (s.received σ es).received τ fs = s.received τ (es ++ fs) := by
  simp [State.received, List.append_assoc]

/-- Receiving an InboundFrame in a session always answers next, with exactly these registers and events. -/
theorem receiveFrame_eq {s : State} {σ : Session} (hs : s.session = some σ) {f : InboundFrame} (hf : f.wellFormed = true) :
    receiveFrame f s = .next (s.received (σ.afterFrame f) (σ.frameEvents f)) := by
  have hs' : (s.emit (.frame f)).session = some σ := hs
  simp only [receiveFrame, inSession_some hs, hf, if_true, dispatchOp, inSession_some hs', decodeStatusOp, detectVariantOp,
    Bool.not_true, Bool.false_eq_true, if_false]
  by_cases h2 : f.kind = Config.kindStatus
  · simp [h2, Session.afterFrame, Session.frameEvents, State.received, State.emit, State.setSession]
  · by_cases h3 : f.kind = Config.kindInfo
    · have hne : Config.kindInfo ≠ Config.kindStatus := by decide
      simp [h3, hne, Session.afterFrame, Session.frameEvents, State.received, State.emit, State.setSession]
    · simp [h2, h3, Session.afterFrame, Session.frameEvents, State.received, State.emit, ← hs]

theorem frameOf_wellFormed (kind : Byte) {body : List Byte} (h : body.length = 295) : (frameOf kind body).wellFormed = true := by
  simp [InboundFrame.wellFormed, frameOf, h]

/-- A 300-byte run that starts with the header, by its parts. -/
theorem frame_parts {f : List Byte} (hl : f.length = 300) (hm : f.take 4 = Config.rxMagic) :
    ∃ kind body, f = Config.rxMagic ++ kind :: body ∧ body.length = 295 := by
  have hd := List.take_append_drop 4 f
  rw [hm] at hd
  cases hb : f.drop 4 with
  | nil => rw [hb] at hd; rw [← hd] at hl; simp at hl
  | cons k b =>
    rw [hb] at hd
    refine ⟨k, b, hd.symm, ?_⟩
    rw [← hd] at hl
    simpa using hl

/-- The instruction a frame stands for receives it. -/
theorem exec_nameFrame (kind : Byte) (body : List Byte) (s : State) :
    exec (nameFrame kind body) s = receiveFrame (frameOf kind body) s := by
  unfold nameFrame
  split
  · subst_vars; rfl
  · split
    · subst_vars; rfl
    · rfl

theorem decode_frame (kind : Byte) {body : List Byte} (h : body.length = 295) :
    decode (Config.rxMagic ++ kind :: body) = .ok (nameFrame kind body) := by
  simp [decode, decodeFrame, h]

/-- Running a cut frame is receiving it: "emit frame(kind = f[4], payload = f); DISPATCH(f)" (R76). -/
theorem runFrame_eq (kind : Byte) {body : List Byte} (h : body.length = 295) (s : State) :
    runFrame (Config.rxMagic ++ kind :: body) s = receiveFrame (frameOf kind body) s := by
  simp only [runFrame, decode_frame kind h, exec_nameFrame]

end Sys2Proof.Machine
end

