-- ==== Sys2Proof/Laws/Feed.lean ====
section
/-! SUPPORT. The loop of `FEED`, without fuel: its four cases (R77 to R80), and what a whole `FEED` leaves, in terms of the frames FR
cuts. -/

namespace Sys2Proof.Machine

/-! ## Cutting frames -/

theorem cutFrames_fuel {fuel fuel' : Nat} {buf : List Byte} (h : buf.length < fuel) (h' : buf.length < fuel') :
    cutFrames fuel buf = cutFrames fuel' buf := by
  induction fuel generalizing fuel' buf with
  | zero => omega
  | succ n ih =>
    cases fuel' with
    | zero => omega
    | succ m =>
      simp only [cutFrames]
      split
      · rfl
      · split
        · rfl
        · rename_i hl
          have hl' : 300 ≤ buf.length := by simpa using hl
          rw [ih (fuel' := m) (by simp; omega) (by simp; omega)]
      · rename_i i hi
        have := findHeader_lt hi
        exact ih (by simp; omega) (by simp; omega)

theorem reassemble_none {buf : List Byte} (h : findHeader buf = none) : reassemble buf = ([], buf) := by
  simp [reassemble, cutFrames, h]

theorem reassemble_short {buf : List Byte} (h : findHeader buf = some 0) (hl : buf.length < 300) : reassemble buf = ([], buf) := by
  simp [reassemble, cutFrames, h, hl]

theorem reassemble_cut {buf : List Byte} (h : findHeader buf = some 0) (hl : 300 ≤ buf.length) :
    reassemble buf = (buf.take 300 :: (reassemble (buf.drop 300)).1, (reassemble (buf.drop 300)).2) := by
  have hn : ¬ buf.length < Config.frameLen := by simpa using hl
  have e : cutFrames buf.length (buf.drop 300) = reassemble (buf.drop 300) :=
    cutFrames_fuel (by simp; omega) (by simp)
  rw [reassemble, cutFrames, h]
  simp only [if_neg hn, e]

theorem reassemble_skip {buf : List Byte} {i : Nat} (h : findHeader buf = some i) : reassemble buf = reassemble (buf.drop i) := by
  cases i with
  | zero => simp
  | succ i =>
    have hl := findHeader_lt h
    have e : cutFrames buf.length (buf.drop (i + 1)) = reassemble (buf.drop (i + 1)) :=
      cutFrames_fuel (by simp; omega) (by simp)
    rw [reassemble, cutFrames, h]
    exact e

/-- Induction along the passes of the loop (R76): one case per case of the text. -/
theorem reassemble_induction {P : List Byte → Prop}
    (notFound : ∀ buf, findHeader buf = none → P buf)
    (short : ∀ buf, findHeader buf = some 0 → buf.length < 300 → P buf)
    (cut : ∀ buf, findHeader buf = some 0 → 300 ≤ buf.length → P (buf.drop 300) → P buf)
    (skip : ∀ buf i, findHeader buf = some (i + 1) → P (buf.drop (i + 1)) → P buf)
    (buf : List Byte) : P buf := by
  induction h : buf.length using Nat.strongRecOn generalizing buf with
  | _ n ih =>
    cases hf : findHeader buf with
    | none => exact notFound buf hf
    | some i =>
      have hl := findHeader_lt hf
      cases i with
      | zero =>
        by_cases hs : buf.length < 300
        · exact short buf hf hs
        · exact cut buf hf (by omega) (ih _ (by simp; omega) _ rfl)
      | succ i => exact skip buf i hf (ih _ (by simp; omega) _ rfl)

/-- Every frame FR cuts is a 300-byte run that starts with the header (R80). -/
theorem reassemble_frames (buf : List Byte) : ∀ f ∈ (reassemble buf).1, f.length = 300 ∧ f.take 4 = Config.rxMagic := by
  induction buf using reassemble_induction with
  | notFound buf h => simp [reassemble_none h]
  | short buf h hl => simp [reassemble_short h hl]
  | cut buf h hl ih =>
    rw [reassemble_cut h hl]
    intro f hf
    rcases List.mem_cons.1 hf with rfl | hf
    · refine ⟨by simp; omega, ?_⟩
      rw [List.take_take]
      simpa using findHeader_eq_zero.1 h
    · exact ih f hf
  | skip buf i h ih => rw [reassemble_skip h]; exact ih

/-! ## Receiving frames -/

/-- The InboundFrame of a byte sequence. -/
def asFrame (f : List Byte) : InboundFrame := ⟨(f[4]?).getD 0#8, f⟩

/-- The registers after a list of frames. -/
def Session.afterFrames : List (List Byte) → Session → Session
  | [], σ => σ
  | f :: fs, σ => (σ.afterFrame (asFrame f)).afterFrames fs

/-- The events of a list of frames, in order (R139). -/
def Session.framesEvents : List (List Byte) → Session → List Event
  | [], _ => []
  | f :: fs, σ => σ.frameEvents (asFrame f) ++ (σ.afterFrame (asFrame f)).framesEvents fs

theorem Session.afterFrames_setBuf (fs : List (List Byte)) (σ : Session) (b : List Byte) :
    (σ.setBuf b).afterFrames fs = (σ.afterFrames fs).setBuf b := by
  induction fs generalizing σ with
  | nil => rfl
  | cons f fs ih => simp [Session.afterFrames, Session.afterFrame_setBuf, ih]

theorem Session.framesEvents_setBuf (fs : List (List Byte)) (σ : Session) (b : List Byte) :
    (σ.setBuf b).framesEvents fs = σ.framesEvents fs := by
  induction fs generalizing σ with
  | nil => rfl
  | cons f fs ih => simp [Session.framesEvents, Session.frameEvents_setBuf, Session.afterFrame_setBuf, ih]

theorem Session.afterFrames_append (fs gs : List (List Byte)) (σ : Session) :
    σ.afterFrames (fs ++ gs) = (σ.afterFrames fs).afterFrames gs := by
  induction fs generalizing σ with
  | nil => rfl
  | cons f fs ih => simp [Session.afterFrames, ih]

theorem Session.framesEvents_append (fs gs : List (List Byte)) (σ : Session) :
    σ.framesEvents (fs ++ gs) = σ.framesEvents fs ++ (σ.afterFrames fs).framesEvents gs := by
  induction fs generalizing σ with
  | nil => rfl
  | cons f fs ih => simp [Session.framesEvents, Session.afterFrames, ih]

@[simp] theorem Session.setBuf_setBuf (σ : Session) (a b : List Byte) : (σ.setBuf a).setBuf b = σ.setBuf b := rfl

@[simp] theorem Session.afterFrames_buf (fs : List (List Byte)) (σ : Session) : (σ.afterFrames fs).buf = σ.buf := by
  induction fs generalizing σ with
  | nil => rfl
  | cons f fs ih => simp [Session.afterFrames, ih]

/-- Running a frame FR has cut answers next, with exactly these registers and events. -/
theorem runFrame_next {f : List Byte} (hl : f.length = 300) (hm : f.take 4 = Config.rxMagic) {s : State} {σ : Session}
    (hs : s.session = some σ) :
    runFrame f s = .next (s.received (σ.afterFrame (asFrame f)) (σ.frameEvents (asFrame f))) := by
  obtain ⟨k, body, rfl, hb⟩ := frame_parts hl hm
  rw [runFrame_eq k hb, receiveFrame_eq hs (frameOf_wellFormed k hb)]
  rfl

theorem received_nil {s : State} {σ : Session} (hs : s.session = some σ) : s.received σ [] = s := by
  cases s; simp_all [State.received]

/-- What the loop leaves: the frames' registers and events, and the residual buffer. -/
theorem feedLoop_eq {fuel : Nat} {s : State} {σ : Session} (hs : s.session = some σ) (h : σ.buf.length < fuel) :
    feedLoop fuel s =
      .next (s.received ((σ.afterFrames (reassemble σ.buf).1).setBuf (reassemble σ.buf).2)
        (σ.framesEvents (reassemble σ.buf).1)) := by
  induction fuel generalizing s σ with
  | zero => omega
  | succ n ih =>
    simp only [feedLoop, inSession_some hs]
    cases hf : findHeader σ.buf with
    | none =>
      simp only [reassemble_none hf]
      exact congrArg _ (received_nil hs).symm
    | some i =>
      have hlt := findHeader_lt hf
      cases i with
      | zero =>
        by_cases hl : σ.buf.length < 300
        · rw [if_pos (by simpa using hl)]
          simp only [reassemble_short hf hl]
          exact congrArg _ (received_nil hs).symm
        · have hl' : 300 ≤ σ.buf.length := by omega
          rw [if_neg (by simpa using hl)]
          have h300 : (σ.buf.take Config.frameLen).length = 300 := by simp; omega
          have hmag : (σ.buf.take Config.frameLen).take 4 = Config.rxMagic := by
            rw [List.take_take]; simpa using findHeader_eq_zero.1 hf
          rw [runFrame_next h300 hmag (s := s.setSession (σ.setBuf (σ.buf.drop Config.frameLen))) rfl, andThen_next,
            ih (State.received_session _ _ _) (by simp; omega)]
          simp only [reassemble_cut hf hl', Session.setBuf_buf, Session.afterFrame_setBuf,
            Session.frameEvents_setBuf, Session.afterFrames_setBuf, Session.framesEvents_setBuf, Session.afterFrames,
            Session.framesEvents, State.received_received, Session.setBuf_setBuf]
          rfl
      | succ i =>
        have hb : (σ.setBuf (σ.buf.drop (i + 1))).buf.length < n := by simp; omega
        simp only [ih (s := s.setSession (σ.setBuf (σ.buf.drop (i + 1)))) rfl hb, Session.setBuf_buf, ← reassemble_skip hf,
          Session.afterFrames_setBuf, Session.framesEvents_setBuf, Session.setBuf_setBuf]
        rfl

/-- What one `FEED` leaves in a session. -/
theorem feed_eq {s : State} {σ : Session} (hs : s.session = some σ) (chunk : List Byte) :
    feed chunk s =
      .next ((s.setAnswer .done).received
        ((σ.afterFrames (reassemble (σ.buf ++ chunk)).1).setBuf (reassemble (σ.buf ++ chunk)).2)
        (σ.framesEvents (reassemble (σ.buf ++ chunk)).1)) := by
  rw [feed, inSession_some hs,
    feedLoop_eq (s := (s.setSession (σ.setBuf (σ.buf ++ chunk))).setAnswer .done) rfl (by simp)]
  simp only [Session.setBuf_buf, Session.afterFrames_setBuf, Session.framesEvents_setBuf, Session.setBuf_setBuf]
  rfl

end Sys2Proof.Machine
end

