-- ==== Sys2Proof/Laws/Step.lean ====
section
/-! SUPPORT. What one step can do, said once (`step_cases`, `perform_cases`): invariants of the machine follow from these without
unfolding a transaction. -/

namespace Sys2Proof.Machine

/-! ## The placing of an instruction -/

/-- The bytes of a command frame become its operands (R62). -/
theorem transactionOf_command (opcode len : Byte) (rest : List Byte) :
    transactionOf (0xAA#8 :: 0x55#8 :: 0x90#8 :: 0xEB#8 :: opcode :: len :: rest) = .command opcode (rest.take len.toNat) true := rfl

/-- An inbound frame becomes a chunk. -/
theorem transactionOf_frame (kind : Byte) (body : List Byte) : transactionOf (rx300 kind body) = .chunk (rx300 kind body) := rfl

/-! ## ENCODE and the host's actions -/

/-- The two ends of an `ENCODE` (R90, R91): the frame emitted and answered, or the refusal and no event. -/
def EncodeEffect (opcode : Byte) (payload : List Byte) (s t : State) : Prop :=
  (payload.length ≤ 13 ∧ t.events = s.events ++ [.tx (buildCommand opcode payload)] ∧ t.answer = .cmd (buildCommand opcode payload)) ∨
  (13 < payload.length ∧ t.events = s.events ∧ t.answer = .rejected .payloadTooLong)

/-- Everything an `ENCODE` can do. -/
theorem encodeOp_effect {opcode : Byte} {payload : List Byte} {s t : State} (h : encodeOp opcode payload s = .next t) :
    t.session = s.session ∧ t.host = s.host ∧ t.pending = s.pending ∧ t.reports = s.reports ∧ t.freeIx = s.freeIx ∧
      EncodeEffect opcode payload s t := by
  unfold EncodeEffect
  obtain ⟨σ, hs, ⟨hl, rfl⟩ | ⟨hl, rfl⟩⟩ := encodeOp_cases h <;> simp [hl]

/-- In a session every `ENCODE` answers next. -/
theorem encodeOp_next {s : State} {σ : Session} (hs : s.session = some σ) (opcode : Byte) (payload : List Byte) :
    ∃ t, encodeOp opcode payload s = .next t := by
  by_cases hp : payload.length ≤ 13
  · exact ⟨_, encodeOp_fits hs opcode hp⟩
  · exact ⟨_, encodeOp_tooLong hs opcode (by omega)⟩

/-- What follows a `send` touches the host alone. -/
theorem afterSend_effect (h : HostSession) (k : Nat) (rest : List HostAct) (w : Bool) (s : State) :
    (afterSend h k rest w s).session = s.session ∧ (afterSend h k rest w s).pending = s.pending ∧
      (afterSend h k rest w s).events = s.events ∧ (afterSend h k rest w s).answer = s.answer ∧
      ∃ h', (afterSend h k rest w s).host = some h' ∧ h'.csState = h.csState := by
  unfold afterSend
  split
  · simp
  · simp

/-- A write that succeeds: the procedure goes on. -/
theorem afterSend_written {s : State} {c : List Byte} (hs : s.answer = .cmd c) (h : HostSession) (k : Nat) (rest : List HostAct) :
    afterSend h k rest true s = s.setHost (h.setTask k ⟨0, rest⟩) := by simp [afterSend, wroteBytes, hs]

/-- A write that fails: a free number of actions is left out, and the failure is reported once. -/
theorem afterSend_failed {s : State} {c : List Byte} (hs : s.answer = .cmd c) (h : HostSession) (k : Nat) (rest : List HostAct) :
    afterSend h k rest false s =
      ((s.setHost (h.setTask k ⟨0, rest.drop (Config.hostSkip s.freeIx)⟩)).nextFree.failWrite c).report .transportError := by
  simp [afterSend, wroteBytes, hs, reportWrite_cmd (s := (s.setHost _).nextFree) hs]

/-- Everything one action of a procedure can do: it writes no register, keeps the host's record, moves its state only where R142 says, and
emits only what an `ENCODE` emits. -/
theorem hostAct_effect {h : HostSession} {σ : Session} {k : Nat} {a : HostAct} {rest : List HostAct} {w : Bool} {s t : State}
    (hh : hostAct h σ k a rest w s = .next t) :
    t.session = s.session ∧ t.pending = s.pending ∧
    (∃ h', t.host = some h' ∧
      (h'.csState = h.csState ∨ (h.csState = .unauthorized ∧ h'.csState = .authorizing) ∨
        (a = .enterAuthorized ∧ h'.csState = .authorized))) ∧
    ((t.events = s.events ∧ t.answer = .done) ∨ ∃ opcode payload, a = .send opcode payload ∧ EncodeEffect opcode payload s t) := by
  cases a with
  | authorizeIfNeeded => simp only [hostAct] at hh; split at hh <;> cases hh <;> simp
  | enterAuthorizing =>
    cases hh
    refine ⟨rfl, rfl, ⟨_, rfl, ?_⟩, .inl ⟨rfl, rfl⟩⟩
    unfold HostSession.startAuthorizing
    split <;> simp_all
  | enterAuthorized => cases hh; simp
  | send opcode payload =>
    obtain ⟨u, hu, ht⟩ := andThen_eq_next hh
    rw [hostWrite, exec_nameCommand] at hu
    obtain ⟨e1, -, e3, -, -, e6⟩ := encodeOp_effect hu
    obtain ⟨f1, f2, f3, f4, h', f5, f6⟩ := afterSend_effect h k rest w u
    cases ht
    refine ⟨f1.trans e1, f2.trans e3, ⟨h', f5, .inl f6⟩, .inr ⟨opcode, payload, rfl, ?_⟩⟩
    simpa only [EncodeEffect, f3, f4] using e6
  | wait ms => cases hh; simp
  | compare reg target n => simp only [hostAct] at hh; split at hh <;> [skip; split at hh] <;> cases hh <;> simp

/-! ## One transaction -/

/-- The `ENCODE` a transaction asks for, if it asks for one. -/
def AsksEncode (u : Transaction) (s : State) (opcode : Byte) (payload : List Byte) : Prop :=
  (∃ w, u = .command opcode payload w) ∨ (∃ w, u = .poll w ∧ opcode = 0x96#8 ∧ payload = []) ∨
    ∃ k w h acts, u = .hostMove k w ∧ s.host = some h ∧ h.tasks[k]? = some ⟨0, .send opcode payload :: acts⟩

/-- What a transaction that is neither a link event nor a chunk can do (R153): no register, at most one `ENCODE`, the host's record kept. -/
structure HostEffect (u : Transaction) (s t : State) : Prop where
  writes : u.writesEngine = false
  session : t.session = s.session
  pending : t.pending = s.pending
  host : t.host.isSome = s.host.isSome
  events : (t.events = s.events ∧ ∀ r, t.answer ≠ .rejected r) ∨
    ∃ opcode payload, AsksEncode u s opcode payload ∧ EncodeEffect opcode payload s t
  csState : ∀ h h', s.host = some h → t.host = some h' →
    h'.csState = h.csState ∨ (h.csState = .unauthorized ∧ h'.csState = .authorizing) ∨
      (h'.csState = .authorized ∧ ∃ k w acts, u = .hostMove k w ∧ h.tasks[k]? = some ⟨0, .enterAuthorized :: acts⟩)

/-- The host's own `ENCODE` and its write, by cases: the answer of the write changes nothing but the host's side (R103, R166). -/
theorem hostCommand_eq {s : State} {σ : Session} (hs : s.session = some σ) (opcode : Byte) (payload : List Byte) (w : Bool) :
    hostCommand opcode payload w s =
      if 13 < payload.length then .next (s.setAnswer (.rejected .payloadTooLong))
      else
        let t := (s.emit (.tx (buildCommand opcode payload))).setAnswer (.cmd (buildCommand opcode payload))
        .next (if w then t else (t.failWrite (buildCommand opcode payload)).report .transportError) := by
  rw [hostCommand, runCommand, exec_nameCommand]
  split
  · rw [encodeOp_tooLong hs opcode ‹_›, andThen_next, reportWrite_rejected rfl]
  · rw [encodeOp_fits hs opcode (by omega), andThen_next, reportWrite_cmd rfl]

/-- In a session the host's own `ENCODE` always answers next. -/
theorem hostCommand_next {s : State} {σ : Session} (hs : s.session = some σ) (opcode : Byte) (payload : List Byte) (w : Bool) :
    ∃ t, hostCommand opcode payload w s = .next t := by
  rw [hostCommand_eq hs]; split <;> exact ⟨_, rfl⟩

theorem command_effect {opcode : Byte} {payload : List Byte} {w : Bool} {s t : State} (h : hostCommand opcode payload w s = .next t) :
    HostEffect (.command opcode payload w) s t := by
  obtain ⟨u, hu, ht⟩ := andThen_eq_next h
  rw [runCommand, exec_nameCommand] at hu
  obtain ⟨e1, e2, e3, -, -, e6⟩ := encodeOp_effect hu
  cases ht
  refine ⟨rfl, by simp [e1], by simp [e3], by simp [e2], .inr ⟨opcode, payload, .inl ⟨w, rfl⟩, by simpa [EncodeEffect] using e6⟩,
    fun x y hx hy => ?_⟩
  rw [reportWrite_host, e2, hx] at hy; cases hy; exact .inl rfl

theorem hostCall_effect {c : HostCall} {s t : State} (h : hostCall c s = .next t) : HostEffect (.call c) s t := by
  obtain ⟨σ, hs, h⟩ := inSession_eq_next h
  cases hh : s.host with
  | none => rw [hh] at h; cases h
  | some hst =>
    rw [hh] at h
    have start : ∀ acts, HostEffect (.call c) s (startTask hst acts s) := fun acts =>
      ⟨rfl, rfl, rfl, by simp [startTask, hh], .inl ⟨rfl, by simp [startTask]⟩, fun x y hx hy => by
        rw [hh] at hx; cases hx; simp [startTask] at hy; simp [← hy]⟩
    have free : ∀ acts, HostEffect (.call c) s (startTask hst acts s).nextFree := fun acts =>
      ⟨rfl, rfl, rfl, by simp [startTask, hh], .inl ⟨rfl, by simp [startTask]⟩, fun x y hx hy => by
        rw [hh] at hx; cases hx; simp [startTask] at hy; simp [← hy]⟩
    cases c with
    | authorize =>
      simp only at h
      split at h
      · cases h; exact free _
      · cases h; exact start _
    | sendControl reg value => cases h; exact start _
    | sendRobust reg value => cases h; exact start _

theorem hostMove_effect {k : Nat} {w : Bool} {s t : State} (h : hostMove k w s = .next t) : HostEffect (.hostMove k w) s t := by
  obtain ⟨σ, hs, h⟩ := inSession_eq_next h
  cases hh : s.host with
  | none => rw [hh] at h; cases h
  | some hst =>
    rw [hh] at h
    simp only at h
    have idle : HostEffect (.hostMove k w) s (s.setAnswer .done) :=
      ⟨rfl, rfl, rfl, rfl, .inl ⟨rfl, by simp⟩, fun x y hx hy => by simp [hx] at hy; simp [hy]⟩
    cases ht : hst.tasks[k]? with
    | none => rw [ht] at h; cases h; exact idle
    | some tk =>
      rw [ht] at h
      simp only at h
      split at h
      · cases h; exact idle
      · rename_i hw
        split at h
        · cases h
          refine ⟨rfl, rfl, rfl, by simp [hh], .inl ⟨rfl, by simp⟩, fun x y hx hy => ?_⟩
          rw [hh] at hx; cases hx; simp at hy; simp [← hy]
        · rename_i a acts hto
          have hta : hst.tasks[k]? = some ⟨0, a :: acts⟩ := by
            rw [ht]; cases tk; simp at hw hto; simp [hw, hto]
          obtain ⟨e1, e2, ⟨h', e3, e4⟩, e5⟩ := hostAct_effect h
          refine ⟨rfl, e1, e2, by simp [e3, hh], ?_, fun x y hx hy => ?_⟩
          · rcases e5 with ⟨x, y⟩ | ⟨opcode, payload, rfl, z⟩
            · exact .inl ⟨x, by simp [y]⟩
            · exact .inr ⟨opcode, payload, .inr (.inr ⟨k, w, hst, acts, rfl, hh, hta⟩), z⟩
          · rw [hh] at hx; cases hx; rw [e3] at hy; cases hy
            rcases e4 with e | e | ⟨rfl, e⟩
            · exact .inl e
            · exact .inr (.inl e)
            · exact .inr (.inr ⟨e, k, w, acts, rfl, hta⟩)

theorem hostPoll_effect {w : Bool} {s t : State} (h : hostPoll w s = .next t) : HostEffect (.poll w) s t := by
  obtain ⟨σ, hs, h⟩ := inSession_eq_next h
  cases hh : s.host with
  | none => rw [hh] at h; cases h
  | some hst =>
    rw [hh] at h
    simp only at h
    split at h
    · cases h
      exact ⟨rfl, rfl, rfl, rfl, .inl ⟨rfl, by simp⟩, fun x y hx hy => by simp [hx] at hy; simp [hy]⟩
    · obtain ⟨u, hu, ht⟩ := andThen_eq_next h
      obtain ⟨e1, e2, e3, -, -, e6⟩ := encodeOp_effect (opcode := 0x96#8) (payload := []) hu
      cases ht
      refine ⟨rfl, by simp [e1], by simp [e3], by simp [e2, hh],
        .inr ⟨0x96#8, [], .inr (.inl ⟨w, rfl, rfl, rfl⟩), by simpa [EncodeEffect] using e6⟩, fun x y hx hy => ?_⟩
      rw [hh] at hx; cases hx; rw [noteWrite_host, e2] at hy; simp at hy; simp [← hy]

theorem hostElapse_effect {ms : Nat} {s t : State} (h : hostElapse ms s = .next t) : HostEffect (.elapse ms) s t := by
  unfold hostElapse at h
  cases hh : s.host with
  | none =>
    rw [hh] at h; cases h
    exact ⟨rfl, rfl, rfl, rfl, .inl ⟨rfl, by simp⟩, fun x y hx hy => by simp [hx] at hy; simp [hy]⟩
  | some hst =>
    rw [hh] at h; cases h
    refine ⟨rfl, rfl, rfl, by simp [hh], .inl ⟨rfl, by simp⟩, fun x y hx hy => ?_⟩
    rw [hh] at hx; cases hx; simp at hy; simp [← hy]

/-- What a chunk leaves in a session: the registers and events of the frames cut, and the residual buffer. -/
def State.afterChunk (s : State) (σ : Session) (chunk : List Byte) : State :=
  (s.setAnswer .done).received
    ((σ.afterFrames (reassemble (σ.buf ++ chunk)).1).setBuf (reassemble (σ.buf ++ chunk)).2)
    (σ.framesEvents (reassemble (σ.buf ++ chunk)).1)

/-- Everything one transaction can do. -/
theorem perform_cases {u : Transaction} {s t : State} (h : perform u s = .next t) :
    (∃ deviceId, u = .connect deviceId ∧ t = (resetOp s).setHost (HostSession.initial deviceId)) ∨
    (u = .teardown ∧ t = (teardownOp s).dropHost) ∨
    (∃ chunk σ, u = .chunk chunk ∧ s.session = some σ ∧ t = s.afterChunk σ chunk) ∨
    HostEffect u s t := by
  cases u with
  | connect d => cases h; exact .inl ⟨d, rfl, rfl⟩
  | teardown => cases h; exact .inr (.inl ⟨rfl, rfl⟩)
  | chunk b =>
    obtain ⟨σ, hs, -⟩ := inSession_eq_next h
    have h : feed b s = .next t := h
    rw [feed_eq hs] at h
    cases h
    exact .inr (.inr (.inl ⟨b, σ, rfl, hs, rfl⟩))
  | command opcode payload w => exact .inr (.inr (.inr (command_effect h)))
  | checksum b =>
    cases h
    exact .inr (.inr (.inr
      ⟨rfl, rfl, rfl, rfl, .inl ⟨rfl, by simp⟩, fun x y hx hy => by simp [hx] at hy; simp [hy]⟩))
  | call c => exact .inr (.inr (.inr (hostCall_effect h)))
  | hostMove k w => exact .inr (.inr (.inr (hostMove_effect h)))
  | poll w => exact .inr (.inr (.inr (hostPoll_effect h)))
  | elapse ms => exact .inr (.inr (.inr (hostElapse_effect h)))
  | linkFailure =>
    cases h
    exact .inr (.inr (.inr
      ⟨rfl, rfl, rfl, rfl, .inl ⟨rfl, by simp⟩, fun x y hx hy => by simp [hx] at hy; simp [hy]⟩))

/-- A step is idle, or takes the oldest transaction whole. -/
theorem step_cases {s t : State} (h : step s = .next t) :
    (s.pending = [] ∧ t = s) ∨ ∃ u rest, s.pending = u :: rest ∧ perform u (s.setPending rest) = .next t := by
  unfold step at h
  split at h
  · cases h; exact .inl ⟨by assumption, rfl⟩
  · exact .inr ⟨_, _, by assumption, h⟩

end Sys2Proof.Machine
end

