-- ==== Sys2Proof/Laws/Invariant.lean ====
section
/-! SUPPORT. What the parts of a `FEED` keep: the rest states of `buf` (R24), the form of the registers an info frame writes (R17, R25), and
the form of the events (R20). -/

namespace Sys2Proof.Machine

/-- FR leaves `buf` in a rest state, whatever it held (R83). -/
theorem reassemble_atRest (buf : List Byte) : atRest (reassemble buf).2 = true := by
  induction buf using reassemble_induction with
  | notFound buf h => rw [reassemble_none h]; simp [atRest, h]
  | short buf h hl => rw [reassemble_short h hl]; simp [atRest, h, hl]
  | cut buf h hl ih => rw [reassemble_cut h hl]; exact ih
  | skip buf i h ih => rw [reassemble_skip h]; exact ih

/-- `rd_cstr` fits its range and holds no null (R107). -/
theorem rdCstr_credentialOk (frame : List Byte) {lo hi most : Nat} (h : hi - lo ≤ most) :
    credentialOk most (some (rdCstr frame lo hi)) = true := by
  simp only [credentialOk, Bool.and_eq_true, decide_eq_true_eq]
  unfold rdCstr
  refine ⟨le_trans (List.takeWhile_sublist _).length_le ?_, List.all_takeWhile⟩
  rw [slice_length]; omega

/-- The part of `Session.ok` that frames can touch. -/
def Session.registersOk (σ : Session) : Bool :=
  decide (σ.variantOffset ∈ Config.variantOffsets) && credentialOk 16 σ.devicePasscode
    && credentialOk 5 σ.passcode && credentialOk 16 σ.setupPasscode

theorem Session.ok_eq (σ : Session) : σ.ok = (atRest σ.buf && σ.registersOk) := by
  simp [Session.ok, Session.registersOk, Bool.and_assoc]

theorem Session.afterFrame_registersOk (f : InboundFrame) {σ : Session} (h : σ.registersOk = true) :
    (σ.afterFrame f).registersOk = true := by
  unfold Session.afterFrame
  split
  · simpa [Session.registersOk] using h
  · split
    · simp only [Session.registersOk, Session.detectVariant, Bool.and_eq_true]
      exact ⟨⟨⟨decide_eq_true (selectVariant_legal _ _), rdCstr_credentialOk _ (by decide)⟩, rdCstr_credentialOk _ (by decide)⟩,
        rdCstr_credentialOk _ (by decide)⟩
    · exact h

theorem Session.afterFrames_registersOk (fs : List (List Byte)) {σ : Session} (h : σ.registersOk = true) :
    (σ.afterFrames fs).registersOk = true := by
  induction fs generalizing σ with
  | nil => exact h
  | cons f fs ih => exact ih (Session.afterFrame_registersOk _ h)

theorem asFrame_wellFormed {f : List Byte} (hl : f.length = 300) (hm : f.take 4 = Config.rxMagic) : (asFrame f).wellFormed = true := by
  obtain ⟨k, b, rfl, hb⟩ := frame_parts hl hm
  exact frameOf_wellFormed k hb

/-- The events of one frame have the form every event of a run has. -/
theorem Session.frameEvents_ok {f : InboundFrame} (hf : f.wellFormed = true) (σ : Session) :
    (σ.frameEvents f).all Event.ok = true := by
  unfold Session.frameEvents
  split
  · simp [Event.ok, hf, Session.statusEvent]
  · split
    · simp only [List.all_cons, List.all_nil, Event.ok, hf, Session.credentialsEvent, Session.detectVariant, Bool.true_and,
        Bool.and_true, Bool.and_eq_true]
      exact ⟨⟨rdCstr_credentialOk _ (by decide), rdCstr_credentialOk _ (by decide)⟩, rdCstr_credentialOk _ (by decide)⟩
    · simp [Event.ok, hf]

theorem Session.framesEvents_ok {fs : List (List Byte)} (h : ∀ f ∈ fs, f.length = 300 ∧ f.take 4 = Config.rxMagic) (σ : Session) :
    (σ.framesEvents fs).all Event.ok = true := by
  induction fs generalizing σ with
  | nil => rfl
  | cons f fs ih =>
    simp only [Session.framesEvents, List.all_append, Bool.and_eq_true]
    exact ⟨Session.frameEvents_ok (asFrame_wellFormed (h f (by simp)).1 (h f (by simp)).2) σ, ih (fun g hg => h g (by simp [hg])) _⟩

/-- The receive side emits no `tx` (R46). -/
theorem Session.framesEvents_isTx (fs : List (List Byte)) (σ : Session) : ∀ e ∈ σ.framesEvents fs, e.isTx = false := by
  induction fs generalizing σ with
  | nil => simp [Session.framesEvents]
  | cons f fs ih =>
    intro e he
    rcases List.mem_append.1 he with he | he
    · unfold Session.frameEvents at he
      split at he
      · simp at he; rcases he with rfl | rfl <;> rfl
      · split at he
        · simp at he; rcases he with rfl | rfl <;> rfl
        · simp at he; subst he; rfl
    · exact ih _ e he

end Sys2Proof.Machine
end

