-- ==== Sys2Proof/Tests/Slice0.lean ====
section
/-! SUPPORT. Tests. The expected values come from 95_test_vectors.md (named in each comment) or are written out from the encodings of
30_encoding.md; the last part shows that the hypotheses of the statements can be met. -/

namespace Sys2Proof.Tests

-- One theorem at a time: the kernel evaluations of this file, all at once, would ask for more threads than a sandbox gives.
set_option Elab.async false

open Sys2Proof.Machine

/-! ## Helpers -/

/-- Writes bytes over a sequence from an index on. -/
def overlay (s : List Byte) (part : Nat × List Byte) : List Byte :=
  s.take part.1 ++ part.2 ++ s.drop (part.1 + part.2.length)

/-- `Z(k; p1: bytes1; ...)` of 95_test_vectors.md. -/
def zFrame (k : Byte) (parts : List (Nat × List Byte)) : List Byte :=
  parts.foldl overlay ([0x55#8, 0xAA#8, 0xEB#8, 0x90#8, k] ++ List.replicate 295 0x00#8)

/-- The body of `Z(k; ...)`. -/
def zBody (parts : List (Nat × List Byte)) : List Byte := (zFrame 0x00#8 parts).drop 5

/-- `S(off)` of 95_test_vectors.md, section 5. -/
def sParts (off : Nat) : List (Nat × List Byte) :=
  [(118 + off, [0x39#8, 0x30#8, 0x00#8, 0x00#8]), (142 + off, [0xCD#8, 0x81#8, 0x01#8, 0x00#8]),
   (146 + off, [0xA0#8, 0x86#8, 0x01#8, 0x00#8]), (150 + off, [0x2A#8, 0x00#8, 0x00#8, 0x00#8]), (166 + off, [0x01#8]),
   (167 + off, [0x00#8])]

/-- ASCII `"JK_BD6.0"`. -/
def jkBd60 : List Byte := [0x4A#8, 0x4B#8, 0x5F#8, 0x42#8, 0x44#8, 0x36#8, 0x2E#8, 0x30#8]

/-- A session right after reset but for its offset. -/
def sessionAt (off : Nat) : Session := { Session.initial with variantOffset := off }

/-- The state after reset with this session. -/
def stateOf (σ : Session) : State := { State.reset with session := some σ }

/-- The state after reset with these transactions pending. -/
def pendingState (ts : List Transaction) : State := { State.reset with pending := ts }

/-- The outcome is a next state of which `p` holds. -/
def nextWith (o : Result) (p : State → Bool) : Bool :=
  match o with
  | .next s => p s
  | .fault _ => false
  | .refused _ => false

/-- The outcome is a next state whose session satisfies `p`. -/
def sessionWith (o : Result) (p : Session → Bool) : Bool :=
  nextWith o fun s =>
    match s.session with
    | some σ => p σ
    | none => false

/-- The six status registers. -/
def statusOf (σ : Session) : Option Word32 × Option Word32 × Option Word32 × Option Word32 × Option Bool × Option Bool :=
  (σ.totalVoltage, σ.remainingCapacity, σ.nominalCapacity, σ.cycleCount, σ.chargeEnabled, σ.dischargeEnabled)

/-- The kinds of the `frame` events, in order. -/
def kindsOf (s : State) : List Byte :=
  s.events.filterMap fun e =>
    match e with
    | .frame f => some f.kind
    | _ => none

/-- Which event each is, in order: 0 `frame`, 1 `status_update`, 2 `credentials`, 3 `tx`. -/
def shapeOf (s : State) : List Nat :=
  s.events.map fun e =>
    match e with
    | .frame _ => 0
    | .statusUpdate _ _ _ _ _ _ => 1
    | .credentials _ _ _ => 2
    | .tx _ => 3

/-- FEED from the state after reset. -/
def feedReset (chunk : List Byte) : Result := feed chunk State.reset

/-- A state with a live session and this procedure in flight. -/
def hostState (auth : CsState) (σ : Session) (todo : List HostAct) : State :=
  { State.reset with session := some σ, host := some { HostSession.initial 0 with csState := auth, tasks := [⟨0, todo⟩] } }

/-! ## WellFormed: each check refuses an ill-formed term -/

theorem test_wf_payload_of_14 : (Instr.cmdAuthorize (List.replicate 14 0x41#8)).wellFormed = false := by decide
theorem test_wf_payload_of_13 : (Instr.cmdAuthorize (List.replicate 13 0x41#8)).wellFormed = true := by decide
theorem test_wf_raw_payload_of_14 : (Instr.cmdRaw 0xFF#8 (List.replicate 14 0x41#8)).wellFormed = false := by decide
theorem test_wf_raw_named_row : (Instr.cmdRaw 0x1D#8 [0x01#8]).wellFormed = false := by decide
theorem test_wf_raw_unnamed_length : (Instr.cmdRaw 0x1D#8 [0x01#8, 0x01#8]).wellFormed = true := by decide
theorem test_wf_status_body_of_294 : (Instr.frmStatus (List.replicate 294 0x00#8)).wellFormed = false := by decide +kernel
theorem test_wf_info_body_of_296 : (Instr.frmInfo (List.replicate 296 0x00#8)).wellFormed = false := by decide +kernel
theorem test_wf_other_kind_2 : (Instr.frmOther 0x02#8 (List.replicate 295 0x00#8)).wellFormed = false := by decide +kernel
theorem test_wf_other_kind_3 : (Instr.frmOther 0x03#8 (List.replicate 295 0x00#8)).wellFormed = false := by decide +kernel
theorem test_wf_other_body_of_294 : (Instr.frmOther 0x01#8 (List.replicate 294 0x00#8)).wellFormed = false := by decide +kernel

/-! ## Decode: words written out from R50, R55 and the vectors -/

/-- `match`, `mask` and `length_bytes` of spec/opcode_table.json, row by row. -/
theorem test_opcode_table_is_the_file :
    opcodeTable =
      [ ⟨"CMD.AUTHORIZE",
          [0xAA#8, 0x55#8, 0x90#8, 0xEB#8, 0x05#8, 0x00#8, 0x00#8, 0x00#8, 0x00#8, 0x00#8, 0x00#8, 0x00#8, 0x00#8, 0x00#8, 0x00#8, 0x00#8, 0x00#8, 0x00#8, 0x00#8, 0x00#8],
          [0xFF#8, 0xFF#8, 0xFF#8, 0xFF#8, 0xFF#8, 0x00#8, 0x00#8, 0x00#8, 0x00#8, 0x00#8, 0x00#8, 0x00#8, 0x00#8, 0x00#8, 0x00#8, 0x00#8, 0x00#8, 0x00#8, 0x00#8, 0x00#8], 20⟩,
        ⟨"CMD.SET_CHARGE",
          [0xAA#8, 0x55#8, 0x90#8, 0xEB#8, 0x1D#8, 0x01#8, 0x00#8, 0x00#8, 0x00#8, 0x00#8, 0x00#8, 0x00#8, 0x00#8, 0x00#8, 0x00#8, 0x00#8, 0x00#8, 0x00#8, 0x00#8, 0x00#8],
          [0xFF#8, 0xFF#8, 0xFF#8, 0xFF#8, 0xFF#8, 0xFF#8, 0x00#8, 0xFF#8, 0xFF#8, 0xFF#8, 0xFF#8, 0xFF#8, 0xFF#8, 0xFF#8, 0xFF#8, 0xFF#8, 0xFF#8, 0xFF#8, 0xFF#8, 0x00#8], 20⟩,
        ⟨"CMD.SET_DISCHARGE",
          [0xAA#8, 0x55#8, 0x90#8, 0xEB#8, 0x1E#8, 0x01#8, 0x00#8, 0x00#8, 0x00#8, 0x00#8, 0x00#8, 0x00#8, 0x00#8, 0x00#8, 0x00#8, 0x00#8, 0x00#8, 0x00#8, 0x00#8, 0x00#8],
          [0xFF#8, 0xFF#8, 0xFF#8, 0xFF#8, 0xFF#8, 0xFF#8, 0x00#8, 0xFF#8, 0xFF#8, 0xFF#8, 0xFF#8, 0xFF#8, 0xFF#8, 0xFF#8, 0xFF#8, 0xFF#8, 0xFF#8, 0xFF#8, 0xFF#8, 0x00#8], 20⟩,
        ⟨"CMD.REFRESH",
          [0xAA#8, 0x55#8, 0x90#8, 0xEB#8, 0x96#8, 0x00#8, 0x00#8, 0x00#8, 0x00#8, 0x00#8, 0x00#8, 0x00#8, 0x00#8, 0x00#8, 0x00#8, 0x00#8, 0x00#8, 0x00#8, 0x00#8, 0x10#8],
          [0xFF#8, 0xFF#8, 0xFF#8, 0xFF#8, 0xFF#8, 0xFF#8, 0xFF#8, 0xFF#8, 0xFF#8, 0xFF#8, 0xFF#8, 0xFF#8, 0xFF#8, 0xFF#8, 0xFF#8, 0xFF#8, 0xFF#8, 0xFF#8, 0xFF#8, 0xFF#8], 20⟩,
        ⟨"CMD.INFO",
          [0xAA#8, 0x55#8, 0x90#8, 0xEB#8, 0x97#8, 0x00#8, 0x00#8, 0x00#8, 0x00#8, 0x00#8, 0x00#8, 0x00#8, 0x00#8, 0x00#8, 0x00#8, 0x00#8, 0x00#8, 0x00#8, 0x00#8, 0x11#8],
          [0xFF#8, 0xFF#8, 0xFF#8, 0xFF#8, 0xFF#8, 0xFF#8, 0xFF#8, 0xFF#8, 0xFF#8, 0xFF#8, 0xFF#8, 0xFF#8, 0xFF#8, 0xFF#8, 0xFF#8, 0xFF#8, 0xFF#8, 0xFF#8, 0xFF#8, 0xFF#8], 20⟩,
        ⟨"CMD.RAW",
          [0xAA#8, 0x55#8, 0x90#8, 0xEB#8, 0x00#8, 0x00#8, 0x00#8, 0x00#8, 0x00#8, 0x00#8, 0x00#8, 0x00#8, 0x00#8, 0x00#8, 0x00#8, 0x00#8, 0x00#8, 0x00#8, 0x00#8, 0x00#8],
          [0xFF#8, 0xFF#8, 0xFF#8, 0xFF#8, 0x00#8, 0x00#8, 0x00#8, 0x00#8, 0x00#8, 0x00#8, 0x00#8, 0x00#8, 0x00#8, 0x00#8, 0x00#8, 0x00#8, 0x00#8, 0x00#8, 0x00#8, 0x00#8], 20⟩,
        ⟨"FRM.STATUS",
          [0x55#8, 0xAA#8, 0xEB#8, 0x90#8, 0x02#8],
          [0xFF#8, 0xFF#8, 0xFF#8, 0xFF#8, 0xFF#8], 300⟩,
        ⟨"FRM.INFO",
          [0x55#8, 0xAA#8, 0xEB#8, 0x90#8, 0x03#8],
          [0xFF#8, 0xFF#8, 0xFF#8, 0xFF#8, 0xFF#8], 300⟩,
        ⟨"FRM.OTHER",
          [0x55#8, 0xAA#8, 0xEB#8, 0x90#8, 0x00#8],
          [0xFF#8, 0xFF#8, 0xFF#8, 0xFF#8, 0x00#8], 300⟩ ] := by decide

/-- V-CE-8. -/
theorem test_decode_authorize :
    decode [0xAA#8, 0x55#8, 0x90#8, 0xEB#8, 0x05#8, 0x06#8, 0x31#8, 0x32#8, 0x33#8, 0x34#8, 0x35#8, 0x36#8, 0#8, 0#8, 0#8, 0#8, 0#8,
      0#8, 0#8, 0xBA#8] = .ok (.cmdAuthorize [0x31#8, 0x32#8, 0x33#8, 0x34#8, 0x35#8, 0x36#8]) := by decide
/-- V-CE-15. -/
theorem test_decode_set_charge :
    decode [0xAA#8, 0x55#8, 0x90#8, 0xEB#8, 0x1D#8, 0x01#8, 0x02#8, 0#8, 0#8, 0#8, 0#8, 0#8, 0#8, 0#8, 0#8, 0#8, 0#8, 0#8, 0#8, 0x9A#8]
      = .ok (.cmdSetCharge 0x02#8) := by decide
/-- V-CE-5. -/
theorem test_decode_set_discharge :
    decode [0xAA#8, 0x55#8, 0x90#8, 0xEB#8, 0x1E#8, 0x01#8, 0x01#8, 0#8, 0#8, 0#8, 0#8, 0#8, 0#8, 0#8, 0#8, 0#8, 0#8, 0#8, 0#8, 0x9A#8]
      = .ok (.cmdSetDischarge 0x01#8) := by decide
/-- V-CE-1. -/
theorem test_decode_refresh :
    decode [0xAA#8, 0x55#8, 0x90#8, 0xEB#8, 0x96#8, 0#8, 0#8, 0#8, 0#8, 0#8, 0#8, 0#8, 0#8, 0#8, 0#8, 0#8, 0#8, 0#8, 0#8, 0x10#8]
      = .ok .cmdRefresh := by decide
/-- V-CE-2. -/
theorem test_decode_info :
    decode [0xAA#8, 0x55#8, 0x90#8, 0xEB#8, 0x97#8, 0#8, 0#8, 0#8, 0#8, 0#8, 0#8, 0#8, 0#8, 0#8, 0#8, 0#8, 0#8, 0#8, 0#8, 0x11#8]
      = .ok .cmdInfo := by decide
/-- V-CE-11. -/
theorem test_decode_raw :
    decode ([0xAA#8, 0x55#8, 0x90#8, 0xEB#8, 0xFF#8, 0x0D#8] ++ List.replicate 13 0xFF#8 ++ [0x79#8])
      = .ok (.cmdRaw 0xFF#8 (List.replicate 13 0xFF#8)) := by decide
/-- R50, kind `0x02`. -/
theorem test_decode_status :
    decode ([0x55#8, 0xAA#8, 0xEB#8, 0x90#8, 0x02#8] ++ List.replicate 295 0xC3#8) = .ok (.frmStatus (List.replicate 295 0xC3#8)) := by
  decide +kernel
/-- R50, kind `0x03`. -/
theorem test_decode_frame_info :
    decode ([0x55#8, 0xAA#8, 0xEB#8, 0x90#8, 0x03#8] ++ List.replicate 295 0x5A#8) = .ok (.frmInfo (List.replicate 295 0x5A#8)) := by
  decide +kernel
/-- V-FR-16. -/
theorem test_decode_other :
    decode ([0x55#8, 0xAA#8, 0xEB#8, 0x90#8, 0x07#8] ++ List.replicate 295 0xAB#8)
      = .ok (.frmOther 0x07#8 (List.replicate 295 0xAB#8)) := by decide +kernel

/-- R35: the inbound header is not the outbound one. -/
theorem test_decode_bad_magic : decode (List.replicate 20 0x55#8) = .error .badMagic := by decide
/-- R50: no shorter inbound frame. -/
theorem test_decode_bad_length :
    decode ([0x55#8, 0xAA#8, 0xEB#8, 0x90#8, 0x02#8] ++ List.replicate 294 0x00#8) = .error .badLength := by decide +kernel
/-- R62: `c[5] <= 13`. -/
theorem test_decode_bad_payload_length :
    decode ([0xAA#8, 0x55#8, 0x90#8, 0xEB#8, 0x00#8, 0x0E#8] ++ List.replicate 13 0x00#8 ++ [0x88#8]) = .error .payloadLength := by
  decide +kernel
/-- R62: the padding is zero. -/
theorem test_decode_bad_padding :
    decode ([0xAA#8, 0x55#8, 0x90#8, 0xEB#8, 0x96#8, 0x00#8, 0x01#8] ++ List.replicate 12 0x00#8 ++ [0x11#8]) = .error .padding := by
  decide +kernel
/-- R62: the checksum. -/
theorem test_decode_bad_checksum :
    decode ([0xAA#8, 0x55#8, 0x90#8, 0xEB#8, 0x96#8] ++ List.replicate 14 0x00#8 ++ [0x11#8]) = .error .checksum := by decide

/-! ## CHECKSUM (V-CK-4, V-CK-5, V-CK-8) -/

theorem test_checksum_wraps : checksum [0xFF#8, 0x01#8] = 0x00#8 := by decide
theorem test_checksum_unsigned : checksum [0xFF#8, 0xFF#8] = 0xFE#8 := by decide
theorem test_checksum_header : checksum [0xAA#8, 0x55#8, 0x90#8, 0xEB#8] = 0x7A#8 := by decide

/-! ## Commands -/

/-- V-CE-10: the most bytes, no padding. -/
theorem test_exec_authorize_13 :
    nextWith (exec (.cmdAuthorize [0x41#8, 0x42#8, 0x43#8, 0x44#8, 0x45#8, 0x46#8, 0x47#8, 0x48#8, 0x49#8, 0x4A#8, 0x4B#8, 0x4C#8,
        0x4D#8]) State.reset)
      (fun s => s.answer == .cmd [0xAA#8, 0x55#8, 0x90#8, 0xEB#8, 0x05#8, 0x0D#8, 0x41#8, 0x42#8, 0x43#8, 0x44#8, 0x45#8, 0x46#8,
        0x47#8, 0x48#8, 0x49#8, 0x4A#8, 0x4B#8, 0x4C#8, 0x4D#8, 0x27#8]) = true := by decide
/-- V-CE-13: one byte more is refused, without an event. -/
theorem test_exec_authorize_14 :
    nextWith (exec (.cmdAuthorize (List.replicate 14 0x41#8)) State.reset)
      (fun s => s.answer == .rejected .payloadTooLong && s.events.isEmpty) = true := by decide
/-- V-CE-3. -/
theorem test_exec_set_charge :
    nextWith (exec (.cmdSetCharge 0x01#8) State.reset)
      (fun s => s.events == [.tx [0xAA#8, 0x55#8, 0x90#8, 0xEB#8, 0x1D#8, 0x01#8, 0x01#8, 0#8, 0#8, 0#8, 0#8, 0#8, 0#8, 0#8, 0#8, 0#8,
        0#8, 0#8, 0#8, 0x99#8]]) = true := by decide
/-- V-CE-6. -/
theorem test_exec_set_discharge :
    nextWith (exec (.cmdSetDischarge 0x00#8) State.reset)
      (fun s => s.events == [.tx [0xAA#8, 0x55#8, 0x90#8, 0xEB#8, 0x1E#8, 0x01#8, 0x00#8, 0#8, 0#8, 0#8, 0#8, 0#8, 0#8, 0#8, 0#8, 0#8,
        0#8, 0#8, 0#8, 0x99#8]]) = true := by decide
/-- V-CE-1. -/
theorem test_exec_refresh :
    nextWith (exec .cmdRefresh State.reset)
      (fun s => s.events == [.tx ([0xAA#8, 0x55#8, 0x90#8, 0xEB#8, 0x96#8] ++ List.replicate 14 0#8 ++ [0x10#8])]) = true := by
  decide +kernel
/-- V-CE-2. -/
theorem test_exec_info :
    nextWith (exec .cmdInfo State.reset)
      (fun s => s.events == [.tx ([0xAA#8, 0x55#8, 0x90#8, 0xEB#8, 0x97#8] ++ List.replicate 14 0#8 ++ [0x11#8])]) = true := by
  decide +kernel
/-- V-CE-11. -/
theorem test_exec_raw :
    nextWith (exec (.cmdRaw 0xFF#8 (List.replicate 13 0xFF#8)) State.reset)
      (fun s => s.answer == .cmd ([0xAA#8, 0x55#8, 0x90#8, 0xEB#8, 0xFF#8, 0x0D#8] ++ List.replicate 13 0xFF#8 ++ [0x79#8])) = true := by
  decide +kernel
/-- V-CE-14: the test is on the length, not on the content. -/
theorem test_encode_refuses_length :
    nextWith (step (pendingState [.command 0x1D#8 (List.replicate 14 0x00#8) false]))
      (fun s => s.answer == .rejected .payloadTooLong && s.events.isEmpty) = true := by decide

/-! ## Status frames -/

/-- V-FD-2. -/
theorem test_exec_status_16 :
    sessionWith (exec (.frmStatus (zBody (sParts 16))) (stateOf (sessionAt 16)))
      (fun σ => statusOf σ == (some 12345#32, some 98765#32, some 100000#32, some 42#32, some true, some false)) = true := by
  decide +kernel
/-- V-FD-4: unsigned, byte order, only `01` is true. -/
theorem test_exec_status_unsigned :
    sessionWith (exec (.frmStatus (zBody [(118, [0xFF#8, 0xFF#8, 0xFF#8, 0xFF#8]), (150, [0x78#8, 0x56#8, 0x34#8, 0x12#8]),
        (166, [0x02#8]), (167, [0xFF#8])])) State.reset)
      (fun σ => statusOf σ == (some 4294967295#32, some 0#32, some 0#32, some 305419896#32, some false, some false)) = true := by
  decide +kernel
/-- V-FD-9: the wrong offset gives wrong values and no error. -/
theorem test_status_wrong_offset :
    sessionWith (exec (.frmStatus (zBody (sParts 0))) (stateOf (sessionAt 32)))
      (fun σ => statusOf σ == (some 42#32, some 0#32, some 0#32, some 0#32, some false, some false)) = true := by decide +kernel
/-- V-FD-12: the first offset at which a field is skipped. -/
theorem test_status_offset_133 :
    sessionWith (exec (.frmStatus (zBody [])) (stateOf (sessionAt 133)))
      (fun σ => statusOf σ == (some 0#32, some 0#32, some 0#32, some 0#32, some false, none)) = true := by decide +kernel
/-- V-FD-13: all six skipped, and the event still comes. -/
theorem test_status_offset_179 :
    nextWith (exec (.frmStatus (zBody [])) (stateOf (sessionAt 179)))
      (fun s => s.session == some (sessionAt 179) && shapeOf s == [0, 1]) = true := by decide +kernel

/-! ## Info frames -/

/-- V-VD-16: every credential, two of them filling their range; offset 32. -/
theorem test_exec_info_credentials :
    sessionWith (exec (.frmInfo (zBody [(6, jkBd60), (62, [0x31#8, 0x32#8, 0x33#8, 0x34#8]),
        (97, [0x31#8, 0x32#8, 0x33#8, 0x34#8, 0x35#8]), (118, List.replicate 16 0x46#8)])) State.reset)
      (fun σ => σ.variantOffset == 32 && σ.devicePasscode == some [0x31#8, 0x32#8, 0x33#8, 0x34#8]
        && σ.passcode == some [0x31#8, 0x32#8, 0x33#8, 0x34#8, 0x35#8] && σ.setupPasscode == some (List.replicate 16 0x46#8)) = true := by
  decide +kernel
/-- V-VD-14: `contains` does not reach past index 21. -/
theorem test_exec_info_range :
    sessionWith (exec (.frmInfo (zBody [(6, List.replicate 14 0x41#8 ++ [0x33#8, 0x32#8]), (22, [0x53#8])])) (stateOf (sessionAt 32)))
      (fun σ => σ.variantOffset == 0 && σ.passcode == some []) = true := by decide +kernel
/-- V-VD-4: the firmware arm alone. -/
theorem test_variant_firmware :
    selectVariant [0x4A#8, 0x4B#8, 0x5F#8, 0x42#8, 0x31#8] [0x31#8, 0x31#8, 0x2E#8, 0x58#8, 0x57#8] = 32 := by decide
/-- V-VD-7: `starts_with "JK_B2A"` alone. -/
theorem test_variant_b2a :
    selectVariant [0x4A#8, 0x4B#8, 0x5F#8, 0x42#8, 0x32#8, 0x41#8, 0x32#8, 0x34#8, 0x53#8] [] = 16 := by decide
/-- V-VD-8: strings shorter than the literals match nothing. -/
theorem test_variant_short : selectVariant [0x4A#8, 0x4B#8, 0x5F#8, 0x42#8] [0x31#8, 0x31#8] = 0 := by decide
/-- V-VD-13: nothing after the first null is seen. -/
theorem test_vendor_null : vendorOf (zFrame 0x03#8 [(6, [0x4A#8, 0x4B#8, 0x00#8, 0x33#8, 0x32#8, 0x53#8])]) = [0x4A#8, 0x4B#8] := by
  decide +kernel

/-! ## Dispatch and FEED -/

/-- V-DI-1. -/
theorem test_exec_other :
    nextWith (exec (.frmOther 0x07#8 (List.replicate 295 0xAB#8)) State.reset)
      (fun s => s.session == some Session.initial && kindsOf s == [0x07#8] && shapeOf s == [0]) = true := by decide +kernel
/-- V-DI-2: the new offset is used at once. -/
theorem test_feed_info_then_status :
    nextWith (feedReset (zFrame 0x03#8 [(6, jkBd60)] ++ zFrame 0x02#8 (sParts 32)))
      (fun s => shapeOf s == [0, 2, 0, 1] && kindsOf s == [0x03#8, 0x02#8]
        && (s.session.bind fun σ => σ.totalVoltage) == some 12345#32) = true := by decide +kernel
/-- V-DI-3: a status frame ahead of the info frame is decoded at offset 0. -/
theorem test_feed_status_then_info :
    sessionWith (feedReset (zFrame 0x02#8 (sParts 32) ++ zFrame 0x03#8 [(6, jkBd60)]))
      (fun σ => σ.variantOffset == 32 && σ.totalVoltage == some 0#32 && σ.cycleCount == some 12345#32 && σ.buf.isEmpty) = true := by
  decide +kernel
/-- V-FR-7: a broken header start is junk. -/
theorem test_feed_broken_header :
    sessionWith (feedReset [0x55#8, 0xAA#8, 0x55#8, 0xAA#8, 0xEB#8, 0x90#8, 0x02#8])
      (fun σ => σ.buf == [0x55#8, 0xAA#8, 0xEB#8, 0x90#8, 0x02#8]) = true := by decide
/-- V-FR-4: a partial header is kept. -/
theorem test_feed_partial_header :
    sessionWith (feedReset [0x55#8, 0xAA#8, 0xEB#8]) (fun σ => σ.buf == [0x55#8, 0xAA#8, 0xEB#8]) = true := by decide
/-- V-FR-8: the 300th byte triggers the emission. -/
theorem test_feed_300th_byte :
    nextWith (andThen (feedReset ((zFrame 0x02#8 []).take 299)) fun s => andThen (.next { s with events := [] }) (feed [0x00#8]))
      (fun s => kindsOf s == [0x02#8] && (s.session.map Session.buf) == some []) = true := by decide +kernel
/-- V-FR-12: a header inside a body is data. -/
theorem test_feed_header_in_body :
    nextWith (feedReset (zFrame 0x02#8 [(100, [0x55#8, 0xAA#8, 0xEB#8, 0x90#8, 0x03#8])]))
      (fun s => kindsOf s == [0x02#8] && (s.session.map Session.buf) == some []) = true := by decide +kernel
/-- V-FR-13: a false header is honoured. -/
theorem test_feed_false_header :
    nextWith (feedReset ([0x01#8, 0x02#8, 0x03#8, 0x55#8, 0xAA#8, 0xEB#8, 0x90#8] ++ List.replicate 5 0x09#8 ++ zFrame 0x02#8 []))
      (fun s => kindsOf s == [0x09#8] && (s.session.map Session.buf) == some (List.replicate 9 0x00#8)) = true := by decide +kernel
/-- V-FR-14 and the line below its table: a truncated frame swallows the next. -/
theorem test_feed_truncated :
    sessionWith (feedReset ((zFrame 0x02#8 [(118, [0x67#8, 0x2B#8, 0x00#8, 0x00#8])]).take 120
        ++ zFrame 0x02#8 [(118, [0xCE#8, 0x56#8, 0x00#8, 0x00#8]), (166, [0x01#8])]))
      (fun σ => σ.buf == List.replicate 120 0x00#8 && σ.totalVoltage == some 2857708391#32 && σ.chargeEnabled == some false) = true := by
  decide +kernel
/-- V-FR-18 (V-SRC-7a): one frame, and a residual buffer without a header. -/
theorem test_feed_short_first_frame :
    nextWith (feedReset (List.replicate 10 0x00#8 ++ (zFrame 0x02#8 []).take 299 ++ zFrame 0x03#8 []))
      (fun s => kindsOf s == [0x02#8]
        && (s.session.map Session.buf) == some ([0xAA#8, 0xEB#8, 0x90#8, 0x03#8] ++ List.replicate 295 0x00#8)) = true := by
  decide +kernel

/-! ## Sessions (V-RS-2, V-RS-3, V-RS-4) -/

/-- A session with a partial frame and known values. -/
def busySession : Session :=
  { sessionAt 32 with buf := [0x55#8, 0xAA#8, 0xEB#8, 0x90#8, 0x02#8], totalVoltage := some 5#32 }

theorem test_reconnect_keeps_nothing :
    nextWith (andThen (perform .teardown (stateOf busySession)) (perform (.connect 0)))
      (fun s => s.session == some Session.initial && s.events.isEmpty) = true := by decide
theorem test_no_feed_after_teardown :
    andThen (perform .teardown State.reset) (perform (.chunk [0x00#8])) = .refused .outsideSession := rfl
theorem test_no_refresh_after_teardown :
    andThen (perform .teardown State.reset) (exec .cmdRefresh) = .refused .outsideSession := rfl

/-! ## The host -/

/-- R142: an `authorize` of an authorized host does not leave `Authorized`. -/
theorem test_host_stays_authorized :
    nextWith (perform (.hostMove 0 true) (hostState .authorized Session.initial [.enterAuthorizing]))
      (fun s => s.host.map HostSession.csState == some .authorized) = true := by decide +kernel
/-- R144 with an unknown passcode: the call runs, and nothing is sent yet. -/
theorem test_host_authorize_unknown :
    nextWith (perform (.call .authorize) State.reset)
      (fun s => s.events.isEmpty && s.host.map (fun h => h.tasks.length) == some 1) = true := by decide +kernel

/-- R103, R166: a failed write of a command the host sends itself reaches the host and its caller. -/
theorem test_host_command_write_fails :
    nextWith (step (pendingState [.command 0x97#8 [] false]))
      (fun s => s.reports == [.transportError] && s.writeFailures == [encode .cmdInfo] && s.answer == .cmd (encode .cmdInfo)) = true := by
  decide
/-- R140, R166: a failed write of the poll timer reaches the host and no caller. -/
theorem test_host_poll_write_fails :
    nextWith (perform (.poll false) { State.reset with host := some { HostSession.initial 0 with pollDue := 0 } })
      (fun s => s.reports == [] && s.writeFailures == [encode .cmdRefresh]) = true := by decide

/-! ## The host's table words -/

/-- `withFetchWord` with the 160 bits of V-CE-1: the next step emits that word. -/
theorem test_fetch_refresh :
    nextWith (step (State.reset.withFetchWord 160 (leValue (encode .cmdRefresh))))
      (fun s => s.answer == .cmd (encode .cmdRefresh)) = true := by decide
/-- `withFetchWord` with the 40 bits of the `FRM.STATUS` row, zeros above: the next step decodes the frame. -/
theorem test_fetch_status :
    nextWith (step (State.reset.withFetchWord 40 0x0290EBAA55)) (fun s => kindsOf s == [0x02#8] && shapeOf s == [0, 1]) = true := by
  decide +kernel
theorem test_table_word_status : decodeTableWord 40 0x0290EBAA55 = some (.frmStatus (List.replicate 295 0x00#8)) := by decide +kernel

/-! ## Witnesses: the hypotheses of each statement, met together by concrete values

A theorem `witness_<Name>` belongs to the statement `Obligations.<Name>`; its docstring says which clause or boundary it shows. -/

/-- A 300-byte sequence of kind `k` with this body byte. -/
def plain (k b : Byte) : List Byte := [0x55#8, 0xAA#8, 0xEB#8, 0x90#8, k] ++ List.replicate 295 b

/-- One instruction of each constructor, payloads at the bound. -/
def samples : List Instr :=
  [.cmdAuthorize (List.replicate 13 0x41#8), .cmdSetCharge 0xFF#8, .cmdSetDischarge 0x00#8, .cmdRefresh, .cmdInfo,
   .cmdRaw 0x96#8 [0x00#8], .frmStatus (List.replicate 295 0x01#8), .frmInfo (List.replicate 295 0x55#8),
   .frmOther 0xFF#8 (List.replicate 295 0x90#8)]

theorem witness_DecodeInvertsEncode : samples.all Instr.wellFormed = true := by decide +kernel
theorem witness_TableWordIsEncoding : samples.all Instr.wellFormed = true := by decide +kernel
theorem witness_StepRunsPlacedInstruction : samples.all Instr.wellFormed = true ∧ State.reset.session.isSome = true := by decide +kernel
theorem witness_EncodeInvertsDecode : decode (plain 0x02#8 0x00#8) = .ok (.frmStatus (List.replicate 295 0x00#8)) := by decide +kernel
theorem witness_DecodedRowIsFirstMatch :
    decode (encode (.cmdRaw 0x1D#8 [])) = .ok (.cmdRaw 0x1D#8 []) := by decide
theorem witness_CommandFramesAreEncodeOutputs :
    (List.replicate 13 0xAA#8).length ≤ 13 ∧ commandFrame (encode (.cmdRaw 0x55#8 (List.replicate 13 0xAA#8))) = true := by decide
theorem witness_EncodeIsInjective :
    [0x00#8].length ≤ 13 ∧ buildCommand 0x05#8 [0x00#8] = buildCommand 0x05#8 [0x00#8] := by decide
theorem witness_ChecksumAccumulatesInAnyOrder : [0x01#8, 0xFF#8].Perm [0xFF#8, 0x01#8] := by decide
theorem witness_ReturnedFrameLengthAndChecksum :
    nextWith (runCommand 0xFF#8 (List.replicate 13 0xFF#8) State.reset)
      (fun t => t.answer == .cmd (buildCommand 0xFF#8 (List.replicate 13 0xFF#8))) = true := by decide
theorem witness_CommandsEmitTheirWord :
    (samples.take 6).all (fun i => i.isCommand && i.wellFormed) = true ∧ State.reset.session.isSome = true := by decide
theorem witness_RefreshAndInfoFrames : State.reset.session.isSome = true := by decide
theorem witness_SetFramesForEveryValue : (stateOf busySession).session.isSome = true := by decide
/-- Both instructions, with 13 bytes and with none. -/
theorem witness_PayloadCommandsBuildFields :
    (List.replicate 13 0x00#8).length ≤ 13 ∧ ([] : List Byte).length ≤ 13 ∧ State.reset.session.isSome = true := by decide
theorem witness_OverlongCommandIsRefused : 13 < (List.replicate 14 0x00#8).length ∧ State.reset.session.isSome = true := by
  decide +kernel
/-- The command transaction. -/
theorem witness_RejectOnlyByOverlongEncode :
    nextWith (step (pendingState [.command 0x00#8 (List.replicate 14 0x00#8) true])) (fun t => t.answer == .rejected .payloadTooLong)
      = true := by decide
/-- The host's `send`. -/
theorem witness_RejectOnlyByOverlongEncode_send :
    match step { hostState .authorizing Session.initial [.send 0x05#8 (List.replicate 16 0x31#8)] with pending := [.hostMove 0 true] } with
    | .next t => t.answer = .rejected .payloadTooLong
    | _ => False := rfl
/-- With 13 bytes, and with 14. -/
theorem witness_CommandAnswersFrameIffFits :
    State.reset.session.isSome = true ∧ (List.replicate 13 0x00#8).length ≤ 13 ∧ 13 < (List.replicate 14 0x00#8).length := by decide
theorem witness_EncodeIgnoresState : State.reset.session.isSome = true ∧ (stateOf busySession).session.isSome = true := by decide
/-- The last four bytes of a frame. -/
theorem witness_FieldIsUnsignedLittleEndian :
    (plain 0x02#8 0xFF#8)[296]? = some 0xFF#8 ∧ (plain 0x02#8 0xFF#8)[297]? = some 0xFF#8 ∧ (plain 0x02#8 0xFF#8)[298]? = some 0xFF#8 ∧
      (plain 0x02#8 0xFF#8)[299]? = some 0xFF#8 := by decide
theorem witness_BooleanFieldIsOne : (plain 0x02#8 0x01#8)[299]? = some 0x01#8 ∧ (plain 0x02#8 0x02#8)[299]? = some 0x02#8 := by
  decide +kernel
/-- The range of a passcode, and the empty range at the end. -/
theorem witness_StringStopsAtFirstNull :
    (97 ≤ 102 ∧ 102 ≤ (plain 0x03#8 0x41#8).length) ∧ (300 ≤ 300 ∧ 300 ≤ (plain 0x03#8 0x41#8).length) := by decide +kernel
/-- Each legal offset. -/
theorem witness_StatusFrameWritesAllSix :
    ∀ off ∈ [0, 16, 32], (stateOf (sessionAt off)).session = some (sessionAt off) ∧ (zBody (sParts off)).length = 295 ∧
      (sessionAt off).variantOffset ∈ [0, 16, 32] := by decide +kernel
/-- The first offsets at which a field is skipped, one by one (R111), and the last before them. -/
theorem witness_UncontainedFieldKeepsLastValue :
    (∀ off ∈ [0, 132, 133, 134, 147, 151, 155, 179], (stateOf (sessionAt off)).session = some (sessionAt off)) ∧
      (⟨0x02#8, plain 0x02#8 0x01#8⟩ : InboundFrame).wellFormed = true := by decide +kernel
/-- Each legal offset. -/
theorem witness_TotalVoltageRoundTrip :
    ∀ off ∈ [0, 16, 32], (stateOf (sessionAt off)).session = some (sessionAt off) ∧ (zBody (sParts off)).length = 295 ∧
      slice ([0x55#8, 0xAA#8, 0xEB#8, 0x90#8, 0x02#8] ++ zBody (sParts off)) (118 + off) (122 + off)
        = [0x39#8, 0x30#8, 0x00#8, 0x00#8] := by decide +kernel
theorem witness_InfoFrameWritesVariantAndCredentials :
    (stateOf busySession).session = some busySession ∧ (zBody [(6, jkBd60)]).length = 295 := by decide +kernel
/-- One pair for each clause: the vendor arm of row 1, its firmware arm, both arms of row 2, neither. -/
theorem witness_VariantDecisionTable :
    ([0x4A#8, 0x4B#8, 0x5F#8, 0x42#8, 0x44#8] : List Byte) <+: jkBd60 ∧
    ([0x31#8, 0x31#8, 0x2E#8] : List Byte) <+: [0x31#8, 0x31#8, 0x2E#8] ∧
    (([0x33#8, 0x32#8, 0x53#8] : List Byte) <:+: [0x58#8, 0x33#8, 0x32#8, 0x53#8] ∧
      ¬ ([0x4A#8, 0x4B#8, 0x5F#8, 0x42#8, 0x44#8] : List Byte) <+: [0x58#8, 0x33#8, 0x32#8, 0x53#8]) ∧
    (([0x4A#8, 0x4B#8, 0x5F#8, 0x42#8, 0x32#8, 0x41#8] : List Byte) <+: [0x4A#8, 0x4B#8, 0x5F#8, 0x42#8, 0x32#8, 0x41#8]) ∧
    (¬ ([0x4A#8, 0x4B#8, 0x5F#8, 0x42#8, 0x44#8] : List Byte) <+: [] ∧ ¬ ([0x31#8, 0x31#8, 0x2E#8] : List Byte) <+: [] ∧
      ¬ ([0x4A#8, 0x4B#8, 0x5F#8, 0x42#8, 0x32#8, 0x41#8] : List Byte) <+: [] ∧
      ¬ ([0x33#8, 0x32#8, 0x53#8] : List Byte) <:+: []) := by decide
/-- The kinds beside the two named ones, and the largest. -/
theorem witness_OtherFramePassesUndecoded :
    ∀ k ∈ [0x00#8, 0x01#8, 0x04#8, 0xFF#8], State.reset.session.isSome = true ∧ (List.replicate 295 k).length = 295 ∧ k ≠ 0x02#8 ∧
      k ≠ 0x03#8 := by decide +kernel
/-- Each branch of the dispatch. -/
theorem witness_CutFrameIsEmittedThenDispatched :
    ∀ k ∈ [0x01#8, 0x02#8, 0x03#8, 0x04#8], State.reset.session.isSome = true ∧ (plain k 0x00#8).length = 300 ∧
      (plain k 0x00#8).take 4 = [0x55#8, 0xAA#8, 0xEB#8, 0x90#8] ∧ (plain k 0x00#8)[4]? = some k := by decide +kernel
/-- Each decoder with a frame of the other's kind, and with one of neither. -/
theorem witness_DecodersRefuseOtherKinds :
    ∀ k ∈ [0x02#8, 0x03#8, 0x00#8], State.reset.session.isSome = true ∧ (⟨k, plain k 0x00#8⟩ : InboundFrame).wellFormed = true := by
  decide +kernel
theorem witness_FeedWithoutHeaderKeepsBuffer :
    State.reset.session = some Session.initial ∧ findHeader (Session.initial.buf ++ [0x55#8, 0xAA#8, 0xEB#8]) = none := by decide
/-- The longest partial frame, a further header inside it. -/
theorem witness_FeedWaitsForPartialFrame :
    (stateOf busySession).session = some busySession ∧
      (busySession.buf ++ ((zFrame 0x02#8 [(100, Config.rxMagic)]).drop 5).take 294).take 4 = [0x55#8, 0xAA#8, 0xEB#8, 0x90#8] ∧
      (busySession.buf ++ ((zFrame 0x02#8 [(100, Config.rxMagic)]).drop 5).take 294).length = 299 := by decide +kernel
theorem witness_FeedDropsBytesBeforeHeader :
    State.reset.session = some Session.initial ∧
      findHeader (Session.initial.buf ++ [0x55#8, 0x55#8, 0xAA#8, 0xEB#8, 0x90#8]) = some 1 := by decide
theorem witness_FeedEmitsWholeFrame :
    State.reset.session = some Session.initial ∧ Session.initial.buf ++ (plain 0x03#8 0x00#8 ++ [0x55#8]) = plain 0x03#8 0x00#8 ++ [0x55#8] ∧
      (plain 0x03#8 0x00#8).length = 300 ∧ (plain 0x03#8 0x00#8).take 4 = [0x55#8, 0xAA#8, 0xEB#8, 0x90#8] ∧
      (plain 0x03#8 0x00#8)[4]? = some 0x03#8 := by decide +kernel
theorem witness_FindReturnsFirstHeader :
    findHeader [0x90#8, 0x55#8, 0xAA#8, 0xEB#8, 0x90#8, 0x55#8, 0xAA#8, 0xEB#8, 0x90#8] = some 1 ∧ findHeader [0x55#8, 0xAA#8, 0xEB#8] = none := by
  decide +kernel
theorem witness_FeedReceivesCutFramesInOrder : (stateOf busySession).session = some busySession := by decide
theorem witness_FeedEndsWithBoundedOutput : (stateOf busySession).session = some busySession := by decide
theorem witness_FeedLeavesRestState : (stateOf busySession).session.isSome = true := by decide
/-- An empty chunk among them. -/
theorem witness_ChunkingInvariance :
    (stateOf busySession).session.isSome = true ∧ [[0x55#8], [], [0xAA#8, 0xEB#8]] ≠ ([] : List (List Byte)) := by decide
/-- Both rest states. -/
theorem witness_FeedNothingAtRest :
    State.reset.session = some Session.initial ∧ atRest Session.initial.buf = true ∧ (stateOf busySession).session = some busySession ∧
      atRest busySession.buf = true := by decide
/-- V-FR-14's shape, and the shortest and longest truncation. -/
theorem witness_TruncatedFrameSwallowsSuccessor :
    State.reset.session = some Session.initial ∧ Session.initial.buf = [] ∧
      ∀ n ∈ [4, 120, 299], ((plain 0x02#8 0x00#8).take n).take 4 = [0x55#8, 0xAA#8, 0xEB#8, 0x90#8] ∧
        ((plain 0x02#8 0x00#8).take n).length < 300 ∧ (List.replicate 300 0x11#8).length = 300 ∧
        findHeader ((List.replicate 300 0x11#8).drop (300 - ((plain 0x02#8 0x00#8).take n).length)) = none := by decide +kernel
theorem witness_OnlyLastThreeJunkBytesMatter : findHeader [0x01#8, 0x02#8, 0x55#8, 0xAA#8, 0xEB#8] = none := by decide
/-- Both clauses: a frame being collected, and a hunt with one header byte matched. -/
theorem witness_SerialMachineRefinesReassembler :
    (Serial.initial.pushAll [0x55#8, 0xAA#8, 0xEB#8, 0x90#8]).1.fr ≠ [] ∧ (Serial.initial.pushAll [0xAA#8, 0x55#8]).1 = ⟨1, []⟩ := by
  decide +kernel
theorem witness_NoStepOutsideSession : ({ State.reset with session := none } : State).session = none := rfl
/-- A call of `authorize` with no known passcode too. -/
theorem witness_LiveStepAlwaysCompletes :
    (pendingState [.call .authorize]).session.isSome = true ∧ (pendingState [.call .authorize]).host.isSome = true := by decide
theorem witness_StepKeepsInvariant :
    (pendingState [.chunk (plain 0x03#8 0x41#8)]).ok = true ∧
      nextWith (step (pendingState [.chunk (plain 0x03#8 0x41#8)])) (fun t => shapeOf t == [0, 2]) = true := by decide +kernel
theorem witness_CommandRunsItsWord : (List.replicate 13 0x00#8).length ≤ 13 := by decide
theorem witness_OnlyLinkAndChunkWriteEngine :
    (pendingState [.command 0x96#8 [] true]).pending = [.command 0x96#8 [] true] ∧ (Transaction.command 0x96#8 [] true).writesEngine = false ∧
      nextWith (step (pendingState [.command 0x96#8 [] true])) (fun _ => true) = true := by decide
theorem witness_KnownRegistersStayKnown :
    ({ stateOf busySession with pending := [.chunk (plain 0x02#8 0x00#8)] } : State).session = some busySession ∧
      (Transaction.chunk (plain 0x02#8 0x00#8)).isLink = false ∧
      nextWith (step { stateOf busySession with pending := [.chunk (plain 0x02#8 0x00#8)] }) (fun _ => true) = true := by decide +kernel
theorem witness_EventsAreOnlyAppended : nextWith (step (pendingState [.poll true])) (fun _ => true) = true := by decide
theorem witness_EncodeAndFeedCommute : State.reset.session.isSome = true := by decide
theorem witness_NewOffsetIsUsedAtOnce :
    State.reset.session = some Session.initial ∧ Session.initial.buf = [] ∧ (zBody [(6, jkBd60)]).length = 295 ∧
      (zBody (sParts 32)).length = 295 := by decide +kernel
/-- The clause on steps: a turn that ends `authorize`. -/
theorem witness_AuthorizedOnlyByAuthorize :
    (hostState .authorizing Session.initial [.enterAuthorized]).host.map HostSession.authorized = some false ∧
      nextWith (step { hostState .authorizing Session.initial [.enterAuthorized] with pending := [.hostMove 0 true] })
        (fun t => t.host.map HostSession.authorized == some true) = true := by decide +kernel
/-- The clause that `authorized` stays, and the turns of `authorize` in each of the three states. -/
theorem witness_AuthorizedOnlyByAuthorize_stays :
    (hostState .authorized Session.initial [.enterAuthorizing]).host.map HostSession.authorized = some true ∧
      nextWith (step { hostState .authorized Session.initial [.enterAuthorizing] with pending := [.hostMove 0 true] })
        (fun t => t.host.map HostSession.authorized == some true) = true ∧
      (Transaction.hostMove 0 true).isLink = false ∧
      ∀ c ∈ [CsState.unauthorized, .authorizing, .authorized],
        ((hostState c Session.initial [.enterAuthorizing]).host.bind (·.tasks[0]?)) = some ⟨0, [.enterAuthorizing]⟩ := by decide +kernel
/-- The call of `sendRobust`, and a match, a mismatch with attempts left, a mismatch at the last attempt (`unknown`), each in a procedure in
flight. -/
theorem witness_RobustComparesObservedStatus :
    (hostState .authorized Session.initial []).session = some Session.initial ∧
      (hostState .authorized Session.initial []).host.isSome = true ∧
      (∀ n ∈ [1, 2, 3], ((hostState .authorized Session.initial [.compare .charge true n]).host.bind (·.tasks[0]?))
        = some ⟨0, [.compare .charge true n]⟩) ∧ ({ Session.initial with chargeEnabled := some true } : Session).chargeEnabled = some true ∧
      Session.initial.chargeEnabled ≠ some true := by decide +kernel
/-- Authorized or not, with the passcode known or not, a `send` of 13 bytes, a wait to start, and one with a millisecond left. -/
theorem witness_SendControlAuthorizesFirst :
    (hostState .unauthorized { Session.initial with setupPasscode := some [0x31#8] } [.authorizeIfNeeded]).session.bind (·.setupPasscode)
        = some [0x31#8] ∧
      ((hostState .unauthorized Session.initial [.authorizeIfNeeded]).host.bind (·.tasks[0]?)) = some ⟨0, [.authorizeIfNeeded]⟩ ∧
      (hostState .authorized Session.initial [.authorizeIfNeeded]).host.map HostSession.authorized = some true ∧
      ((hostState .authorizing Session.initial [.send 0x05#8 (List.replicate 13 0x31#8)]).host.bind (·.tasks[0]?))
        = some ⟨0, [.send 0x05#8 (List.replicate 13 0x31#8)]⟩ ∧
      ((hostState .authorizing Session.initial [.wait 500]).host.bind (·.tasks[0]?)) = some ⟨0, [.wait 500]⟩ ∧
      (({ State.reset with host := some { HostSession.initial 0 with tasks := [⟨1, []⟩] } } : State).host.bind (·.tasks[0]?))
        = some ⟨1, []⟩ := by decide +kernel
/-- Due, and not due by one millisecond. -/
theorem witness_PollSendsRefreshWhenDue :
    ({ State.reset with host := some { HostSession.initial 0 with pollDue := 0 } } : State).host.map HostSession.pollDue = some 0 ∧
      ({ State.reset with host := some { HostSession.initial 0 with pollDue := 1 } } : State).host.map HostSession.pollDue = some 1 := by
  decide +kernel

end Sys2Proof.Tests
end

section
/-! FR's cases in which a `FEED` emits no frame (R77 to R79), each read off what a whole `FEED` leaves (`feed_eq`). -/

namespace Sys2Proof.Machine

/-- A `FEED` that completes no frame leaves FR's residual buffer and appends no event. -/
theorem feed_of_reassemble_no_frames {chunk b : List Byte} {s : State} {σ : Session} (hs : s.session = some σ)
    (hr : reassemble (σ.buf ++ chunk) = ([], b)) :
    feed chunk s = .next { s with session := some { σ with buf := b }, answer := .done } := by
  rw [feed_eq hs, hr]
  simp only [Session.afterFrames, Session.framesEvents, State.received, List.append_nil]
  rfl

/-- `FEED` depends on the buffer and the chunk only through the frames and the residual FR cuts from the two together (R43). -/
theorem feed_congr_reassemble {chunk chunk' buf' : List Byte} {s : State} {σ : Session} (hs : s.session = some σ)
    (hr : reassemble (σ.buf ++ chunk) = reassemble (buf' ++ chunk')) :
    feed chunk s = feed chunk' (s.setSession (σ.setBuf buf')) := by
  rw [feed_eq hs, feed_eq (s := s.setSession (σ.setBuf buf')) rfl, hr, Session.setBuf_buf, Session.afterFrames_setBuf,
    Session.framesEvents_setBuf, Session.setBuf_setBuf]
  rfl

/-- Settles O31: without a header FR cuts nothing and its residual is the whole of `buf ++ chunk` (R77). -/
theorem feedWithoutHeaderKeepsBuffer : Obligations.FeedWithoutHeaderKeepsBuffer := by
  intro chunk s σ hs hf
  exact feed_of_reassemble_no_frames hs (reassemble_none hf)

/-- Settles O32: the header at index 0 is the first one, so below 300 bytes FR cuts nothing, whatever stands behind it (R79). -/
theorem feedWaitsForPartialFrame : Obligations.FeedWaitsForPartialFrame := by
  intro chunk s σ hs hm hl
  exact feed_of_reassemble_no_frames hs (reassemble_short (findHeader_eq_zero.2 hm) hl)

/-- Settles O33: FR cuts the same from `buf ++ chunk` with and without the bytes before its first header (R78). -/
theorem feedDropsBytesBeforeHeader : Obligations.FeedDropsBytesBeforeHeader := by
  intro chunk s σ i hs hf _
  constructor
  · apply feed_congr_reassemble hs
    rw [List.append_nil]
    exact reassemble_skip hf
  · exact findHeader_eq_zero.1 (findHeader_drop hf)

end Sys2Proof.Machine
end

section
/-! The readings of one field (43_field_decoder.md): the bytes of its range one by one, and the number they spell. -/

namespace Sys2Proof

theorem slice_self (s : List Byte) (n : Nat) : slice s n n = [] := by simp [slice]

/-- A range that holds an index of the sequence begins with the byte there. -/
theorem slice_eq_cons {s : List Byte} {lo hi : Nat} {b : Byte} (hlt : lo < hi) (hb : s[lo]? = some b) :
    slice s lo hi = b :: slice s (lo + 1) hi := by
  obtain ⟨hlen, rfl⟩ := List.getElem?_eq_some_iff.1 hb
  have hwidth : hi - lo = hi - (lo + 1) + 1 := by omega
  rw [slice, slice, List.drop_eq_getElem_cons hlen, hwidth, List.take_succ_cons]

/-- Four bytes at most never overflow the 32-bit word: no wrap-around, no saturation (R105). -/
theorem rdUnsigned_toNat (frame : List Byte) {p width : Nat} (hw : width ≤ 4) :
    (rdUnsigned frame p width).toNat = leValue (slice frame p (p + width)) := by
  have hlen : (slice frame p (p + width)).length ≤ 4 := by rw [slice_length]; omega
  have hlt : leValue (slice frame p (p + width)) < 2 ^ 32 :=
    calc leValue (slice frame p (p + width))
        < 256 ^ (slice frame p (p + width)).length := leValue_lt _
      _ ≤ 256 ^ 4 := Nat.pow_le_pow_right (by decide) hlen
      _ = 2 ^ 32 := by decide
  rw [rdUnsigned, BitVec.toNat_ofNat, Nat.mod_eq_of_lt hlt]

end Sys2Proof

namespace Sys2Proof.Machine

/-- Settles O19: the range is the four bytes in order, and their little-endian value fits the word (R105). -/
theorem fieldIsUnsignedLittleEndian : Obligations.FieldIsUnsignedLittleEndian := by
  intro frame p b0 b1 b2 b3 h0 h1 h2 h3
  have hbytes : slice frame p (p + 4) = [b0, b1, b2, b3] := by
    rw [slice_eq_cons (by omega) h0, slice_eq_cons (by omega) h1, slice_eq_cons (by omega) h2, slice_eq_cons (by omega) h3,
      slice_self]
  rw [← rdUnsigned_four, rdUnsigned_toNat frame le_rfl, hbytes]
  simp only [leValue_cons, leValue_nil]
  omega

/-- Settles O20: the read is the comparison of the byte with `0x01` (`rdBool_eq`, R106). -/
theorem booleanFieldIsOne : Obligations.BooleanFieldIsOne := by
  intro frame p b hb
  rw [rdBool_eq hb, decide_eq_true_iff]

end Sys2Proof.Machine
end

section
/-! The two wire formats (30_encoding.md): a command frame and an inbound frame by their parts, what the decoder reads from them, and the
names it gives. -/

namespace Sys2Proof.Machine

/-! ## The command frame by its parts (R55, R62) -/

/-- The length byte is the payload's length: 13 is far below 256 (R58). -/
theorem lengthByte_toNat {n : Nat} (h : n ≤ 13) : (BitVec.ofNat 8 n).toNat = n := by
  rw [BitVec.toNat_ofNat]; omega

/-- A command frame as the decoder takes it apart: header, opcode, length, the padded payload, the sum. -/
theorem buildCommand_eq_cons (opcode : Byte) {payload : List Byte} (h : payload.length ≤ 13) :
    buildCommand opcode payload =
      0xAA#8 :: 0x55#8 :: 0x90#8 :: 0xEB#8 :: opcode :: BitVec.ofNat 8 payload.length ::
        ((payload ++ List.replicate (13 - payload.length) 0x00#8) ++ [checksum (commandFields opcode payload)]) :=
  buildCommand_eq opcode h

theorem buildCommand_length (opcode : Byte) {payload : List Byte} (h : payload.length ≤ 13) :
    (buildCommand opcode payload).length = 20 := by
  rw [buildCommand_eq opcode h, List.length_append, commandFields_length opcode h]; rfl

theorem padded_length {payload : List Byte} (h : payload.length ≤ 13) :
    (payload ++ List.replicate (13 - payload.length) 0x00#8).length = 13 := by
  simp; omega

/-- The conditions of R62 pin the whole frame: it is the one `ENCODE` builds from its opcode and its payload. -/
theorem buildCommand_of_parts {opcode len : Byte} {rest : List Byte} (hlen : len.toNat ≤ 13) (hrest : rest.length = 14)
    (hpad : slice rest len.toNat 13 = List.replicate (13 - len.toNat) 0x00#8)
    (hck : rest.drop 13 = [checksum ([0xAA#8, 0x55#8, 0x90#8, 0xEB#8] ++ opcode :: len :: rest.take 13)]) :
    buildCommand opcode (rest.take len.toNat) = [0xAA#8, 0x55#8, 0x90#8, 0xEB#8] ++ opcode :: len :: rest := by
  have hn : (rest.take len.toNat).length = len.toNat := by rw [List.length_take]; omega
  have htake : rest.take 13 = rest.take len.toNat ++ List.replicate (13 - len.toNat) 0x00#8 := by
    rw [← hpad, slice, ← List.take_add]
    congr 1
    omega
  have hfields : commandFields opcode (rest.take len.toNat) = [0xAA#8, 0x55#8, 0x90#8, 0xEB#8] ++ opcode :: len :: rest.take 13 := by
    rw [htake, commandFields, hn, BitVec.ofNat_toNat, BitVec.setWidth_eq]
    rfl
  rw [buildCommand_eq opcode (by omega), hfields, ← hck]
  simp only [List.cons_append, List.nil_append, List.take_append_drop]

/-- Behind the outbound header the decoder reads a command frame (R35). -/
theorem decode_txMagic_append (tail : List Byte) : decode ([0xAA#8, 0x55#8, 0x90#8, 0xEB#8] ++ tail) = decodeCommand tail := rfl

/-- What decodes begins with one of the two headers (R35). -/
theorem decode_ok_magic {bytes : List Byte} {i : Instr} (h : decode bytes = .ok i) :
    (∃ tail, bytes = [0xAA#8, 0x55#8, 0x90#8, 0xEB#8] ++ tail ∧ decodeCommand tail = .ok i) ∨
    (∃ tail, bytes = [0x55#8, 0xAA#8, 0xEB#8, 0x90#8] ++ tail ∧ decodeFrame tail = .ok i) := by
  rw [decode_eq] at h
  split at h
  case isTrue hm => exact .inl ⟨bytes.drop 4, by rw [← hm, List.take_append_drop], h⟩
  case isFalse =>
    split at h
    case isTrue hm => exact .inr ⟨bytes.drop 4, by rw [← hm, List.take_append_drop], h⟩
    case isFalse => cases h

/-- The decoder reads the operands back from the frame `ENCODE` builds. -/
theorem decode_buildCommand (opcode : Byte) {payload : List Byte} (h : payload.length ≤ 13) :
    decode (buildCommand opcode payload) = .ok (nameCommand opcode payload) := by
  have hp := padded_length h
  rw [buildCommand_eq_cons opcode h]
  refine (decode_txMagic_append _).trans ?_
  rw [decodeCommand_cons, lengthByte_toNat h, if_neg (by simp; omega), if_neg (by omega), if_neg, if_neg]
  · rw [List.append_assoc, List.take_left]
  · rw [List.drop_left' hp, List.take_left' hp]
    exact fun hne => hne rfl
  · simp [slice]

/-- What decodes as a command is a frame `ENCODE` builds, under the name of its operands (R62). -/
theorem decodeCommand_ok {tail : List Byte} {i : Instr} (h : decodeCommand tail = .ok i) :
    ∃ opcode payload, payload.length ≤ 13 ∧ [0xAA#8, 0x55#8, 0x90#8, 0xEB#8] ++ tail = buildCommand opcode payload ∧
      i = nameCommand opcode payload := by
  match tail, h with
  | opcode :: len :: rest, h =>
    rw [decodeCommand_cons] at h
    split at h <;> [cases h; skip]
    split at h <;> [cases h; skip]
    split at h <;> [cases h; skip]
    split at h <;> [cases h; skip]
    rename_i hrest hlen hpad hck
    cases h
    refine ⟨opcode, rest.take len.toNat, by rw [List.length_take]; omega, ?_, rfl⟩
    exact (buildCommand_of_parts (by omega) (not_not.1 hrest) (not_not.1 hpad) (not_not.1 hck)).symm

/-- What decodes as an inbound frame has a kind and 295 more bytes, and goes by its kind's name (R50, R52). -/
theorem decodeFrame_ok {tail : List Byte} {i : Instr} (h : decodeFrame tail = .ok i) :
    ∃ kind body, body.length = 295 ∧ tail = kind :: body ∧ i = nameFrame kind body := by
  match tail, h with
  | kind :: body, h =>
    rw [decodeFrame_cons] at h
    split at h <;> [cases h; skip]
    rename_i hl
    cases h
    exact ⟨kind, body, not_not.1 hl, rfl, rfl⟩

/-- Everything that decodes: the frames `ENCODE` builds (R62) and the inbound frames (R50), under the names of their parts. -/
theorem decode_ok_cases {bytes : List Byte} {i : Instr} (h : decode bytes = .ok i) :
    (∃ opcode payload, payload.length ≤ 13 ∧ bytes = buildCommand opcode payload ∧ i = nameCommand opcode payload) ∨
    (∃ kind body, body.length = 295 ∧ bytes = rx300 kind body ∧ i = nameFrame kind body) := by
  obtain ⟨tail, rfl, h⟩ | ⟨tail, rfl, h⟩ := decode_ok_magic h
  · exact .inl (decodeCommand_ok h)
  · obtain ⟨kind, body, hb, rfl, rfl⟩ := decodeFrame_ok h
    exact .inr ⟨kind, body, hb, rfl, rfl⟩

/-! ## The names (R66) -/

/-- Every way the opcode table names a pair of operands: its five rows with fixed operands, and `CMD.RAW` where none of them matches. -/
theorem nameCommand_cases (opcode : Byte) (payload : List Byte) :
    (opcode = 0x05#8 ∧ nameCommand opcode payload = .cmdAuthorize payload) ∨
    (opcode = 0x1D#8 ∧ ∃ v, payload = [v] ∧ nameCommand opcode payload = .cmdSetCharge v) ∨
    (opcode = 0x1E#8 ∧ ∃ v, payload = [v] ∧ nameCommand opcode payload = .cmdSetDischarge v) ∨
    (opcode = 0x96#8 ∧ payload = [] ∧ nameCommand opcode payload = .cmdRefresh) ∨
    (opcode = 0x97#8 ∧ payload = [] ∧ nameCommand opcode payload = .cmdInfo) ∨
    (namedCommand opcode payload.length = false ∧ nameCommand opcode payload = .cmdRaw opcode payload) := by
  by_cases h5 : opcode = 0x05#8
  · subst h5; exact .inl ⟨rfl, rfl⟩
  match payload with
  | [] =>
    by_cases h96 : opcode = 0x96#8
    · subst h96; simp [nameCommand]
    by_cases h97 : opcode = 0x97#8
    · subst h97; simp [nameCommand]
    simp [nameCommand, namedCommand, h5, h96, h97]
  | [v] =>
    by_cases h1D : opcode = 0x1D#8
    · subst h1D; simp [nameCommand]
    by_cases h1E : opcode = 0x1E#8
    · subst h1E; simp [nameCommand]
    simp [nameCommand, namedCommand, h5, h1D, h1E]
  | v :: w :: rest => simp [nameCommand, namedCommand, h5]

/-- Every way a kind names a body: the two kinds that are decoded, and `FRM.OTHER` for the rest (R51). -/
theorem nameFrame_cases (kind : Byte) (body : List Byte) :
    (kind = 0x02#8 ∧ nameFrame kind body = .frmStatus body) ∨ (kind = 0x03#8 ∧ nameFrame kind body = .frmInfo body) ∨
    (namedKind kind = false ∧ nameFrame kind body = .frmOther kind body) := by
  by_cases h2 : kind = 0x02#8
  · subst h2; exact .inl ⟨rfl, rfl⟩
  by_cases h3 : kind = 0x03#8
  · subst h3; exact .inr (.inl ⟨rfl, rfl⟩)
  simp [nameFrame, namedKind, h2, h3]

/-- `CMD.RAW` names what no earlier row does. -/
theorem nameCommand_raw {opcode : Byte} {payload : List Byte} (h : namedCommand opcode payload.length = false) :
    nameCommand opcode payload = .cmdRaw opcode payload := by
  obtain ⟨rfl, -⟩ | ⟨rfl, v, rfl, -⟩ | ⟨rfl, v, rfl, -⟩ | ⟨rfl, rfl, -⟩ | ⟨rfl, rfl, -⟩ | ⟨-, hn⟩ := nameCommand_cases opcode payload
  case inr.inr.inr.inr.inr => exact hn
  all_goals simp [namedCommand] at h

/-- `FRM.OTHER` names what no earlier row does. -/
theorem nameFrame_other {kind : Byte} (h : namedKind kind = false) (body : List Byte) : nameFrame kind body = .frmOther kind body := by
  obtain ⟨rfl, -⟩ | ⟨rfl, -⟩ | ⟨-, hn⟩ := nameFrame_cases kind body
  case inr.inr => exact hn
  all_goals simp [namedKind] at h

/-- The encoder writes a named command as the frame `ENCODE` builds from its operands. -/
theorem encode_nameCommand (opcode : Byte) {payload : List Byte} (h : payload.length ≤ 13) :
    encode (nameCommand opcode payload) = buildCommand opcode payload := by
  rw [← tx20_eq opcode h]
  obtain ⟨rfl, hn⟩ | ⟨rfl, v, rfl, hn⟩ | ⟨rfl, v, rfl, hn⟩ | ⟨rfl, rfl, hn⟩ | ⟨rfl, rfl, hn⟩ | ⟨-, hn⟩ :=
    nameCommand_cases opcode payload <;> rw [hn] <;> rfl

/-- The encoder writes a named frame as header, kind and body. -/
theorem encode_nameFrame (kind : Byte) (body : List Byte) : encode (nameFrame kind body) = rx300 kind body := by
  obtain ⟨rfl, hn⟩ | ⟨rfl, hn⟩ | ⟨-, hn⟩ := nameFrame_cases kind body <;> rw [hn] <;> rfl

theorem nameCommand_wellFormed (opcode : Byte) {payload : List Byte} (h : payload.length ≤ 13) :
    (nameCommand opcode payload).wellFormed = true := by
  obtain ⟨rfl, hn⟩ | ⟨rfl, v, rfl, hn⟩ | ⟨rfl, v, rfl, hn⟩ | ⟨rfl, rfl, hn⟩ | ⟨rfl, rfl, hn⟩ | ⟨hr, hn⟩ :=
    nameCommand_cases opcode payload <;> rw [hn] <;> simp [Instr.wellFormed, payloadFits, *]

theorem nameFrame_wellFormed (kind : Byte) {body : List Byte} (h : body.length = 295) : (nameFrame kind body).wellFormed = true := by
  obtain ⟨rfl, hn⟩ | ⟨rfl, hn⟩ | ⟨hr, hn⟩ := nameFrame_cases kind body <;> rw [hn] <;> simp [Instr.wellFormed, bodyFits, *]

theorem nameCommand_isCommand (opcode : Byte) (payload : List Byte) : (nameCommand opcode payload).isCommand = true := by
  obtain ⟨-, hn⟩ | ⟨-, v, -, hn⟩ | ⟨-, v, -, hn⟩ | ⟨-, -, hn⟩ | ⟨-, -, hn⟩ | ⟨-, hn⟩ :=
    nameCommand_cases opcode payload <;> rw [hn] <;> rfl

theorem nameFrame_isCommand (kind : Byte) (body : List Byte) : (nameFrame kind body).isCommand = false := by
  obtain ⟨-, hn⟩ | ⟨-, hn⟩ | ⟨-, hn⟩ := nameFrame_cases kind body <;> rw [hn] <;> rfl

/-- The well-formed instructions are exactly the names: of operands that fit a command frame, or of a kind and 295 bytes. -/
theorem wellFormed_cases {i : Instr} (h : i.wellFormed = true) :
    (∃ opcode payload, payload.length ≤ 13 ∧ i = nameCommand opcode payload) ∨
    (∃ kind body, body.length = 295 ∧ i = nameFrame kind body) := by
  cases i with
  | cmdAuthorize p => exact .inl ⟨0x05#8, p, by simpa [Instr.wellFormed, payloadFits] using h, rfl⟩
  | cmdSetCharge v => exact .inl ⟨0x1D#8, [v], by simp, rfl⟩
  | cmdSetDischarge v => exact .inl ⟨0x1E#8, [v], by simp, rfl⟩
  | cmdRefresh => exact .inl ⟨0x96#8, [], by simp, rfl⟩
  | cmdInfo => exact .inl ⟨0x97#8, [], by simp, rfl⟩
  | cmdRaw opcode p =>
    obtain ⟨hp, hn⟩ : p.length ≤ 13 ∧ namedCommand opcode p.length = false := by simpa [Instr.wellFormed, payloadFits] using h
    exact .inl ⟨opcode, p, hp, (nameCommand_raw hn).symm⟩
  | frmStatus b => exact .inr ⟨0x02#8, b, by simpa [Instr.wellFormed, bodyFits] using h, rfl⟩
  | frmInfo b => exact .inr ⟨0x03#8, b, by simpa [Instr.wellFormed, bodyFits] using h, rfl⟩
  | frmOther kind b =>
    obtain ⟨hb, hn⟩ : b.length = 295 ∧ namedKind kind = false := by simpa [Instr.wellFormed, bodyFits] using h
    exact .inr ⟨kind, b, hb, (nameFrame_other hn b).symm⟩

/-! ## Round trips -/

/-- Settles O1: a well-formed instruction is a name, and the decoder gives the name of the parts it reads from the encoding. -/
theorem decodeInvertsEncode : Obligations.DecodeInvertsEncode := by
  intro i hi
  obtain ⟨opcode, payload, hp, rfl⟩ | ⟨kind, body, hb, rfl⟩ := wellFormed_cases hi
  · rw [encode_nameCommand opcode hp, decode_buildCommand opcode hp]
  · rw [encode_nameFrame]
    exact decode_frame kind hb

/-- Settles O2: what decodes is the frame of some parts, and the encoder writes their name as that frame. -/
theorem encodeInvertsDecode : Obligations.EncodeInvertsDecode := by
  intro bytes i h
  obtain ⟨opcode, payload, hp, rfl, rfl⟩ | ⟨kind, body, hb, rfl, rfl⟩ := decode_ok_cases h
  · exact ⟨nameCommand_wellFormed opcode hp, encode_nameCommand opcode hp⟩
  · exact ⟨nameFrame_wellFormed kind hb, encode_nameFrame kind body⟩

end Sys2Proof.Machine
end

section
/-! The set of command frames (R62): the fields of the frame `ENCODE` builds, and why nothing else lies in the set. -/

namespace Sys2Proof

/-- The middle part of a sequence, by the lengths of the parts. -/
theorem slice_middle {a b : List Byte} (c : List Byte) {lo hi : Nat} (hlo : a.length = lo) (hhi : lo + b.length = hi) :
    slice (a ++ (b ++ c)) lo hi = b := by
  rw [slice, List.drop_left' hlo, List.take_left' (by omega)]

end Sys2Proof

namespace Sys2Proof.Machine

/-! ## The fields of a built frame -/

theorem slice_buildCommand_fields (opcode : Byte) {payload : List Byte} (h : payload.length ≤ 13) :
    slice (buildCommand opcode payload) 0 19 = commandFields opcode payload := by
  rw [buildCommand_eq opcode h, slice_zero, List.take_left' (commandFields_length opcode h)]

theorem slice_buildCommand_checksum (opcode : Byte) {payload : List Byte} (h : payload.length ≤ 13) :
    slice (buildCommand opcode payload) 19 20 = [checksum (commandFields opcode payload)] := by
  rw [buildCommand_eq opcode h, slice, List.drop_left' (commandFields_length opcode h)]
  rfl

theorem slice_buildCommand_payload (opcode : Byte) {payload : List Byte} (h : payload.length ≤ 13) :
    slice (buildCommand opcode payload) 6 (6 + payload.length) = payload := by
  rw [buildCommand_eq_cons opcode h, List.append_assoc]
  exact slice_middle (a := [0xAA#8, 0x55#8, 0x90#8, 0xEB#8, opcode, BitVec.ofNat 8 payload.length]) _ rfl rfl

theorem slice_buildCommand_padding (opcode : Byte) {payload : List Byte} (h : payload.length ≤ 13) :
    slice (buildCommand opcode payload) (6 + payload.length) 19 = List.replicate (13 - payload.length) 0x00#8 := by
  rw [buildCommand_eq_cons opcode h, List.append_assoc]
  exact slice_middle (a := [0xAA#8, 0x55#8, 0x90#8, 0xEB#8, opcode, BitVec.ofNat 8 payload.length] ++ payload) _
    (by simp; omega) (by simp; omega)

theorem slice_buildCommand_opcode (opcode : Byte) {payload : List Byte} (h : payload.length ≤ 13) :
    slice (buildCommand opcode payload) 4 5 = [opcode] := by
  rw [buildCommand_eq_cons opcode h]
  rfl

theorem slice_buildCommand_length (opcode : Byte) {payload : List Byte} (h : payload.length ≤ 13) :
    slice (buildCommand opcode payload) 5 6 = [BitVec.ofNat 8 payload.length] := by
  rw [buildCommand_eq_cons opcode h]
  rfl

theorem slice_buildCommand_magic (opcode : Byte) {payload : List Byte} (h : payload.length ≤ 13) :
    slice (buildCommand opcode payload) 0 4 = [0xAA#8, 0x55#8, 0x90#8, 0xEB#8] := by
  rw [buildCommand_eq_cons opcode h]
  rfl

/-! ## The set of R62 -/

/-- The conditions of R62 with the parameters written out, for a frame whose length byte is known. -/
theorem commandFrame_iff_of_length {c : List Byte} {len : Byte} (h : slice c 5 6 = [len]) :
    commandFrame c = true ↔
      c.length = 20 ∧ slice c 0 4 = [0xAA#8, 0x55#8, 0x90#8, 0xEB#8] ∧
      (len.toNat ≤ 13 ∧ slice c (6 + len.toNat) 19 = List.replicate (13 - len.toNat) 0x00#8) ∧
      slice c 19 20 = [checksum (slice c 0 19)] := by
  have h' : slice c Config.lenPos Config.payloadPos = [len] := h
  simp only [commandFrame, h', Bool.and_eq_true, decide_eq_true_eq, and_assoc]
  exact Iff.rfl

theorem commandFrame_buildCommand (opcode : Byte) {payload : List Byte} (h : payload.length ≤ 13) :
    commandFrame (buildCommand opcode payload) = true := by
  refine (commandFrame_iff_of_length (slice_buildCommand_length opcode h)).2 ⟨buildCommand_length opcode h,
    slice_buildCommand_magic opcode h, ?_, ?_⟩
  · rw [lengthByte_toNat h]
    exact ⟨h, slice_buildCommand_padding opcode h⟩
  · rw [slice_buildCommand_fields opcode h, slice_buildCommand_checksum opcode h]

/-- A 20-byte sequence behind the outbound header has an opcode, a length byte and 14 bytes more. -/
theorem commandFrame_parts {c : List Byte} (hl : c.length = 20) (hm : slice c 0 4 = [0xAA#8, 0x55#8, 0x90#8, 0xEB#8]) :
    ∃ opcode len rest, c = [0xAA#8, 0x55#8, 0x90#8, 0xEB#8] ++ opcode :: len :: rest ∧ rest.length = 14 := by
  have hc := List.take_append_drop 4 c
  rw [← slice_zero, hm] at hc
  have hd : (c.drop 4).length = 16 := by rw [List.length_drop]; omega
  match hd' : c.drop 4, hd with
  | opcode :: len :: rest, hd => exact ⟨opcode, len, rest, by rw [← hd', hc], by simpa using hd⟩

/-- The set of R62 is what `ENCODE` builds. -/
theorem exists_buildCommand_of_commandFrame {c : List Byte} (h : commandFrame c = true) :
    ∃ opcode payload, payload.length ≤ 13 ∧ buildCommand opcode payload = c := by
  obtain ⟨hl, hm⟩ : c.length = 20 ∧ slice c 0 4 = [0xAA#8, 0x55#8, 0x90#8, 0xEB#8] := by
    have h' := h
    simp only [commandFrame, Bool.and_eq_true, decide_eq_true_eq] at h'
    obtain ⟨⟨⟨hl, hm⟩, -⟩, -⟩ := h'
    exact ⟨hl, hm⟩
  obtain ⟨opcode, len, rest, rfl, hrest⟩ := commandFrame_parts hl hm
  obtain ⟨-, -, ⟨hlen, hpad⟩, hck⟩ := (commandFrame_iff_of_length (len := len) rfl).1 h
  refine ⟨opcode, rest.take len.toNat, by rw [List.length_take]; omega, buildCommand_of_parts hlen hrest ?_ ?_⟩
  · rw [← hpad, slice, slice, Nat.add_comm 6]
    congr 1
    omega
  · rw [slice] at hck
    rw [← List.take_of_length_le (l := rest.drop 13) (i := 1) (by rw [List.length_drop]; omega)]
    exact hck

/-- Settles O3: the fields of a built frame, and the parts of a frame of the set put together again. -/
theorem commandFramesAreEncodeOutputs : Obligations.CommandFramesAreEncodeOutputs :=
  ⟨fun opcode _ h => ⟨commandFrame_buildCommand opcode h, slice_buildCommand_opcode opcode h, slice_buildCommand_length opcode h,
    slice_buildCommand_payload opcode h⟩, fun _ h => exists_buildCommand_of_commandFrame h⟩

/-- Settles O4: opcode, length byte and payload stand at fixed places of the frame. -/
theorem encodeIsInjective : Obligations.EncodeIsInjective := by
  intro opcode opcode' payload payload' h h' he
  have hop : [opcode] = [opcode'] := by
    rw [← slice_buildCommand_opcode opcode h, he, slice_buildCommand_opcode opcode' h']
  have hlen : payload.length = payload'.length := by
    have hbyte : [BitVec.ofNat 8 payload.length] = [BitVec.ofNat 8 payload'.length] := by
      rw [← slice_buildCommand_length opcode h, he, slice_buildCommand_length opcode' h']
    rw [← lengthByte_toNat h, (List.cons.inj hbyte).1, lengthByte_toNat h']
  refine ⟨(List.cons.inj hop).1, ?_⟩
  rw [← slice_buildCommand_payload opcode h, he, hlen, slice_buildCommand_payload opcode' h']

end Sys2Proof.Machine
end

section
/-! What a step keeps and what it can write, each read off the cases of one transaction (`perform_cases`, `step_cases`). -/

namespace Sys2Proof.Machine

/-! ## The machine's invariant -/

/-- The machine's invariant by its three parts (R24, R25, R17; R20; R143). -/
theorem State.ok_iff (s : State) :
    s.ok = true ↔
      (∀ σ, s.session = some σ → σ.ok = true) ∧ s.events.all Event.ok = true ∧ s.session.isSome = s.host.isSome := by
  cases hs : s.session <;> simp [State.ok, hs, and_assoc]

/-- What an `ENCODE` emits has the form of a run's events (R62). -/
theorem EncodeEffect.events_ok {opcode : Byte} {payload : List Byte} {s t : State} (he : EncodeEffect opcode payload s t)
    (h : s.events.all Event.ok = true) : t.events.all Event.ok = true := by
  obtain ⟨hl, hev, -⟩ | ⟨-, hev, -⟩ := he
  · rw [hev, List.all_append, h]
    simpa [Event.ok] using commandFrame_buildCommand opcode hl
  · rw [hev, h]

/-- A chunk leaves `buf` in a rest state and the registers and events in their form. -/
theorem afterChunk_ok {s : State} {σ : Session} (hs : s.session = some σ) (h : s.ok = true) (chunk : List Byte) :
    (s.afterChunk σ chunk).ok = true := by
  obtain ⟨hσ, hev, hhost⟩ := s.ok_iff.1 h
  have hreg : σ.registersOk = true := by
    have := hσ σ hs
    rw [Session.ok_eq, Bool.and_eq_true] at this
    exact this.2
  refine (State.ok_iff _).2 ⟨fun τ hτ => ?_, ?_, ?_⟩
  · cases hτ
    rw [Session.ok_eq, Bool.and_eq_true]
    exact ⟨reassemble_atRest _, Session.afterFrames_registersOk _ hreg⟩
  · rw [State.afterChunk, State.received_events, List.all_append, Bool.and_eq_true]
    exact ⟨hev, Session.framesEvents_ok (reassemble_frames _) σ⟩
  · rw [hs] at hhost
    exact hhost

/-- One transaction keeps the machine's invariant. -/
theorem perform_keeps_ok {u : Transaction} {s t : State} (h : s.ok = true) (hp : perform u s = .next t) : t.ok = true := by
  obtain ⟨hσ, hev, hhost⟩ := s.ok_iff.1 h
  obtain ⟨d, -, rfl⟩ | ⟨-, rfl⟩ | ⟨chunk, σ, -, hs, rfl⟩ | he := perform_cases hp
  · refine (State.ok_iff _).2 ⟨fun τ hτ => ?_, hev, rfl⟩
    cases hτ
    decide
  · exact (State.ok_iff _).2 ⟨fun τ hτ => (by cases hτ), hev, rfl⟩
  · exact afterChunk_ok hs h chunk
  · refine (State.ok_iff _).2 ⟨he.session ▸ hσ, ?_, by rw [he.session, he.host, hhost]⟩
    obtain ⟨hsame, -⟩ | ⟨opcode, payload, -, henc⟩ := he.events
    · rw [hsame, hev]
    · exact henc.events_ok hev

/-- Settles O48: the idle step keeps the state, and every other step is one transaction. -/
theorem stepKeepsInvariant : Obligations.StepKeepsInvariant := by
  intro s t h hstep
  obtain ⟨-, rfl⟩ | ⟨u, rest, -, hp⟩ := step_cases hstep
  · exact h
  · exact perform_keeps_ok (s := s.setPending rest) h hp

/-- Settles O49: every register at its reset value, no event, a session and a host. -/
theorem resetHasInvariant : Obligations.ResetHasInvariant := by
  unfold Obligations.ResetHasInvariant
  decide

end Sys2Proof.Machine
end

section
/-! The host's moves by their cases, one equation each (46_host_control_session.md), and that each of them answers next in a session. -/

namespace Sys2Proof.Machine

/-! ## Turns of a procedure -/

section
variable {s : State} {σ : Session} {h : HostSession} (hs : s.session = some σ) (hh : s.host = some h)
include hs hh

theorem hostMove_absent {k : Nat} (ht : h.tasks[k]? = none) (w : Bool) : hostMove k w s = .next (s.setAnswer .done) := by
  simp only [hostMove, inSession_some hs, hh, ht]

/-- While some of a wait is left, a turn does nothing (R151, R197). -/
theorem hostMove_waiting {k n : Nat} {acts : List HostAct} (ht : h.tasks[k]? = some ⟨n, acts⟩) (hn : 0 < n) (w : Bool) :
    hostMove k w s = .next (s.setAnswer .done) := by
  simp only [hostMove, inSession_some hs, hh, ht, if_pos hn]

theorem hostMove_finished {k : Nat} (ht : h.tasks[k]? = some ⟨0, []⟩) (w : Bool) :
    hostMove k w s = .next ((s.setHost (h.endTask k)).setAnswer .done) := by
  simp only [hostMove, inSession_some hs, hh, ht, if_neg (Nat.lt_irrefl 0)]

/-- A procedure that does not wait performs its next action. -/
theorem hostMove_acts {k : Nat} {a : HostAct} {acts : List HostAct} (ht : h.tasks[k]? = some ⟨0, a :: acts⟩) (w : Bool) :
    hostMove k w s = hostAct h σ k a acts w s := by
  simp only [hostMove, inSession_some hs, hh, ht, if_neg (Nat.lt_irrefl 0)]

end

/-- A `send` that fits emits and answers its frame; what follows is the host's (R144, R145). -/
theorem hostAct_send {s : State} {σ : Session} (hs : s.session = some σ) (h : HostSession) (τ : Session) (k : Nat) (opcode : Byte)
    {payload : List Byte} (hp : payload.length ≤ 13) (acts : List HostAct) (w : Bool) :
    hostAct h τ k (.send opcode payload) acts w s =
      .next (afterSend h k acts w
        ((s.emit (.tx (buildCommand opcode payload))).setAnswer (.cmd (buildCommand opcode payload)))) := by
  rw [hostAct, hostWrite, exec_nameCommand, encodeOp_fits hs opcode hp, andThen_next]

/-- In a session every action of a procedure answers next. -/
theorem hostAct_next {s : State} {σ : Session} (hs : s.session = some σ) (h : HostSession) (τ : Session) (k : Nat) (a : HostAct)
    (acts : List HostAct) (w : Bool) : ∃ t, hostAct h τ k a acts w s = .next t := by
  cases a with
  | authorizeIfNeeded => rw [hostAct]; split <;> exact ⟨_, rfl⟩
  | enterAuthorizing => exact ⟨_, rfl⟩
  | enterAuthorized => exact ⟨_, rfl⟩
  | send opcode payload =>
    obtain ⟨u, hu⟩ := encodeOp_next hs opcode payload
    rw [hostAct, hostWrite, exec_nameCommand, hu, andThen_next]
    exact ⟨_, rfl⟩
  | wait ms => exact ⟨_, rfl⟩
  | compare reg target n => rw [hostAct]; split <;> [skip; split] <;> exact ⟨_, rfl⟩

/-! ## Calls, the poll timer, and time -/

section
variable {s : State} {σ : Session} {h : HostSession} (hs : s.session = some σ) (hh : s.host = some h)
include hs hh

theorem hostCall_sendControl (reg : ControlReg) (value : Bool) :
    hostCall (.sendControl reg value) s = .next (startTask h (controlActs reg value) s) := by
  simp only [hostCall, inSession_some hs, hh]

theorem hostCall_sendRobust (reg : ControlReg) (value : Bool) :
    hostCall (.sendRobust reg value) s = .next (startTask h (robustActs reg value 3) s) := by
  simp only [hostCall, inSession_some hs, hh]

theorem hostCall_authorize_known {p : List Byte} (hp : σ.setupPasscode = some p) :
    hostCall .authorize s = .next (startTask h (authorizeActs p) s) := by
  simp only [hostCall, inSession_some hs, hh, hp]

theorem hostCall_authorize_unknown (hp : σ.setupPasscode = none) :
    hostCall .authorize s = .next (startTask h (authorizeActs (Config.unknownPasscode s.freeIx)) s).nextFree := by
  simp only [hostCall, inSession_some hs, hh, hp]

theorem hostPoll_notDue (hd : 0 < h.pollDue) (w : Bool) : hostPoll w s = .next (s.setAnswer .done) := by
  simp only [hostPoll, inSession_some hs, hh, if_pos hd]

/-- A poll that is due sends one refresh and starts the period again; a failed write reaches the host alone (R148, R166). -/
theorem hostPoll_due (hd : h.pollDue = 0) (w : Bool) :
    hostPoll w s =
      .next (noteWrite w (((s.setHost { h with pollDue := 2000 }).emit (.tx (buildCommand 0x96#8 []))).setAnswer
        (.cmd (buildCommand 0x96#8 [])))) := by
  have hrefresh : exec .cmdRefresh (s.setHost { h with pollDue := 2000 }) = _ :=
    encodeOp_fits (s := s.setHost { h with pollDue := 2000 }) hs 0x96#8 (payload := []) (by decide)
  simp only [hostPoll, inSession_some hs, hh, hd, if_neg (Nat.lt_irrefl 0), hrefresh, andThen_next]

/-- With a session and its host record, each of the host's moves answers next. -/
theorem hostCall_next (c : HostCall) : ∃ t, hostCall c s = .next t := by
  cases c with
  | authorize =>
    cases hp : σ.setupPasscode with
    | none => exact ⟨_, hostCall_authorize_unknown hs hh hp⟩
    | some p => exact ⟨_, hostCall_authorize_known hs hh hp⟩
  | sendControl reg value => exact ⟨_, hostCall_sendControl hs hh reg value⟩
  | sendRobust reg value => exact ⟨_, hostCall_sendRobust hs hh reg value⟩

theorem hostMove_next (k : Nat) (w : Bool) : ∃ t, hostMove k w s = .next t := by
  match ht : h.tasks[k]? with
  | none => exact ⟨_, hostMove_absent hs hh ht w⟩
  | some ⟨n + 1, acts⟩ => exact ⟨_, hostMove_waiting hs hh ht (Nat.succ_pos n) w⟩
  | some ⟨0, []⟩ => exact ⟨_, hostMove_finished hs hh ht w⟩
  | some ⟨0, a :: acts⟩ => rw [hostMove_acts hs hh ht w]; exact hostAct_next hs h σ k a acts w

theorem hostPoll_next (w : Bool) : ∃ t, hostPoll w s = .next t := by
  by_cases hd : 0 < h.pollDue
  · exact ⟨_, hostPoll_notDue hs hh hd w⟩
  · exact ⟨_, hostPoll_due hs hh (by omega) w⟩

end

/-- Time passes: the poll timer and every wait count down (R148, R197). -/
theorem hostElapse_eq {s : State} {h : HostSession} (hh : s.host = some h) (ms : Nat) :
    hostElapse ms s =
      .next ((s.setHost { h with
        pollDue := h.pollDue - ms
        tasks := h.tasks.map fun t => { t with wait := t.wait - ms } }).setAnswer .done) := by
  simp only [hostElapse, hh]

/-! ## Every transaction -/

/-- With a session and its host record, every transaction answers next: no fault, no stuck state (R171). -/
theorem perform_next {s : State} {σ : Session} {h : HostSession} (hs : s.session = some σ) (hh : s.host = some h) (u : Transaction) :
    ∃ t, perform u s = .next t := by
  cases u with
  | connect d => exact ⟨_, rfl⟩
  | teardown => exact ⟨_, rfl⟩
  | chunk bytes => exact ⟨_, feed_eq hs bytes⟩
  | command opcode payload w => exact hostCommand_next hs opcode payload w
  | checksum bytes => exact ⟨_, rfl⟩
  | call c => exact hostCall_next hs hh c
  | hostMove k w => exact hostMove_next hs hh k w
  | poll w => exact hostPoll_next hs hh w
  | elapse ms => exact ⟨_, hostElapse_eq hh ms⟩
  | linkFailure => exact ⟨_, rfl⟩

/-- Settles O47: the idle step answers next, and so does each transaction. -/
theorem liveStepAlwaysCompletes : Obligations.LiveStepAlwaysCompletes := by
  intro s hs hh
  obtain ⟨σ, hs⟩ := Option.isSome_iff_exists.1 hs
  obtain ⟨h, hh⟩ := Option.isSome_iff_exists.1 hh
  cases hp : s.pending with
  | nil => exact ⟨s, by rw [step, hp]⟩
  | cons u rest =>
    rw [step, hp]
    exact perform_next (s := s.setPending rest) hs hh u

end Sys2Proof.Machine
end

section
/-! What a step can write: which transactions touch the engine's registers (R153), that a known register stays known (R16), that events are
only appended (R20), and who raises the refusal (R161). -/

namespace Sys2Proof.Machine

/-- Settles O52: the cases that write the engine are a connect, a teardown and a chunk; every other one keeps the session. -/
theorem onlyLinkAndChunkWriteEngine : Obligations.OnlyLinkAndChunkWriteEngine := by
  intro s t u rest hpend hw hstep
  rw [step, hpend] at hstep
  obtain ⟨d, rfl, -⟩ | ⟨rfl, -⟩ | ⟨chunk, σ, rfl, -, -⟩ | he := perform_cases hstep
  case inr.inr.inr => exact he.session
  all_goals cases hw

/-! ## Events -/

/-- An `ENCODE` appends its one event, or none. -/
theorem EncodeEffect.events_append {opcode : Byte} {payload : List Byte} {s t : State} (he : EncodeEffect opcode payload s t) :
    ∃ es, t.events = s.events ++ es := by
  obtain ⟨-, hev, -⟩ | ⟨-, hev, -⟩ := he
  · exact ⟨_, hev⟩
  · exact ⟨[], by rw [hev, List.append_nil]⟩

/-- One transaction only appends events (R20). -/
theorem perform_events_append {u : Transaction} {s t : State} (hp : perform u s = .next t) : ∃ es, t.events = s.events ++ es := by
  obtain ⟨d, -, rfl⟩ | ⟨-, rfl⟩ | ⟨chunk, σ, -, -, rfl⟩ | he := perform_cases hp
  · exact ⟨[], (List.append_nil _).symm⟩
  · exact ⟨[], (List.append_nil _).symm⟩
  · exact ⟨_, State.received_events _ _ _⟩
  · obtain ⟨hsame, -⟩ | ⟨opcode, payload, -, henc⟩ := he.events
    · exact ⟨[], by rw [hsame, List.append_nil]⟩
    · exact henc.events_append

/-- Settles O54: the idle step appends nothing, a transaction only appends. -/
theorem eventsAreOnlyAppended : Obligations.EventsAreOnlyAppended := by
  intro s t hstep
  obtain ⟨-, rfl⟩ | ⟨u, rest, -, hp⟩ := step_cases hstep
  · exact ⟨[], (List.append_nil _).symm⟩
  · exact perform_events_append (s := s.setPending rest) hp

/-! ## The refusal -/

/-- An `ENCODE` that answers the refusal was over-long (R91). -/
theorem EncodeEffect.tooLong_of_rejected {opcode : Byte} {payload : List Byte} {s t : State} {r : Reject}
    (he : EncodeEffect opcode payload s t) (h : t.answer = .rejected r) : 13 < payload.length := by
  obtain ⟨-, -, hans⟩ | ⟨hlong, -, -⟩ := he
  · rw [hans] at h
    cases h
  · exact hlong

/-- Settles O16: only a transaction that asks for an over-long `ENCODE` answers the refusal, and the poll's `ENCODE` is empty. -/
theorem rejectOnlyByOverlongEncode : Obligations.RejectOnlyByOverlongEncode := by
  intro s t u rest r hpend hstep hans
  rw [step, hpend] at hstep
  obtain ⟨d, -, rfl⟩ | ⟨-, rfl⟩ | ⟨chunk, σ, -, -, rfl⟩ | he := perform_cases hstep
  case inr.inr.inr =>
    obtain ⟨-, hno⟩ | ⟨opcode, payload, hask, henc⟩ := he.events
    · exact absurd hans (hno r)
    have hlong := henc.tooLong_of_rejected hans
    obtain ⟨w, hu⟩ | ⟨w, -, -, rfl⟩ | ⟨k, w, h, acts, hu, hh, ht⟩ := hask
    · exact ⟨opcode, payload, hlong, .inl ⟨w, hu⟩⟩
    · simp at hlong
    · exact ⟨opcode, payload, hlong, .inr ⟨k, w, h, acts, hu, hh, ht⟩⟩
  all_goals cases hans

/-! ## Known registers -/

/-- Every status and credential register that is known in `σ` is known in `τ` (R16). -/
structure Session.StaysKnown (σ τ : Session) : Prop where
  totalVoltage : σ.totalVoltage.isSome → τ.totalVoltage.isSome
  remainingCapacity : σ.remainingCapacity.isSome → τ.remainingCapacity.isSome
  nominalCapacity : σ.nominalCapacity.isSome → τ.nominalCapacity.isSome
  cycleCount : σ.cycleCount.isSome → τ.cycleCount.isSome
  chargeEnabled : σ.chargeEnabled.isSome → τ.chargeEnabled.isSome
  dischargeEnabled : σ.dischargeEnabled.isSome → τ.dischargeEnabled.isSome
  devicePasscode : σ.devicePasscode.isSome → τ.devicePasscode.isSome
  passcode : σ.passcode.isSome → τ.passcode.isSome
  setupPasscode : σ.setupPasscode.isSome → τ.setupPasscode.isSome

namespace Session.StaysKnown

theorem refl (σ : Session) : σ.StaysKnown σ := ⟨id, id, id, id, id, id, id, id, id⟩

theorem trans {σ τ υ : Session} (h : σ.StaysKnown τ) (h' : τ.StaysKnown υ) : σ.StaysKnown υ :=
  ⟨h'.totalVoltage ∘ h.totalVoltage, h'.remainingCapacity ∘ h.remainingCapacity, h'.nominalCapacity ∘ h.nominalCapacity,
    h'.cycleCount ∘ h.cycleCount, h'.chargeEnabled ∘ h.chargeEnabled, h'.dischargeEnabled ∘ h.dischargeEnabled,
    h'.devicePasscode ∘ h.devicePasscode, h'.passcode ∘ h.passcode, h'.setupPasscode ∘ h.setupPasscode⟩

theorem setBuf {σ τ : Session} (h : σ.StaysKnown τ) (b : List Byte) : σ.StaysKnown (τ.setBuf b) :=
  ⟨h.totalVoltage, h.remainingCapacity, h.nominalCapacity, h.cycleCount, h.chargeEnabled, h.dischargeEnabled, h.devicePasscode,
    h.passcode, h.setupPasscode⟩

end Session.StaysKnown

/-- A field that is read is known; a field that is skipped keeps its value (R110). -/
theorem Session.staysKnown_decodeRow (frame : List Byte) (σ : Session) (row : FieldRow) : σ.StaysKnown (σ.decodeRow frame row) := by
  unfold Session.decodeRow
  split
  · obtain ⟨spec, field⟩ := row
    cases field <;> constructor <;> simp [Session.storeField]
  · exact .refl σ

theorem Session.staysKnown_decodeStatus (frame : List Byte) (σ : Session) : σ.StaysKnown (σ.decodeStatus frame) := by
  unfold Session.decodeStatus
  generalize fieldTable = rows
  induction rows generalizing σ with
  | nil => exact .refl σ
  | cons row rows ih => exact (σ.staysKnown_decodeRow frame row).trans (ih _)

theorem Session.staysKnown_detectVariant (frame : List Byte) (σ : Session) : σ.StaysKnown (σ.detectVariant frame) :=
  ⟨id, id, id, id, id, id, fun _ => rfl, fun _ => rfl, fun _ => rfl⟩

theorem Session.staysKnown_afterFrame (f : InboundFrame) (σ : Session) : σ.StaysKnown (σ.afterFrame f) := by
  unfold Session.afterFrame
  split
  · exact σ.staysKnown_decodeStatus _
  · split
    · exact σ.staysKnown_detectVariant _
    · exact .refl σ

theorem Session.staysKnown_afterFrames (fs : List (List Byte)) (σ : Session) : σ.StaysKnown (σ.afterFrames fs) := by
  induction fs generalizing σ with
  | nil => exact .refl σ
  | cons f fs ih => exact (σ.staysKnown_afterFrame (asFrame f)).trans (ih _)

/-- A transaction that neither begins nor ends the session keeps it live, and its known registers known. -/
theorem perform_staysKnown {u : Transaction} {s t : State} {σ : Session} (hlink : u.isLink = false) (hs : s.session = some σ)
    (hp : perform u s = .next t) : ∃ τ, t.session = some τ ∧ σ.StaysKnown τ := by
  obtain ⟨d, rfl, -⟩ | ⟨rfl, -⟩ | ⟨chunk, σ', -, hs', rfl⟩ | he := perform_cases hp
  · cases hlink
  · cases hlink
  · rw [hs] at hs'
    cases hs'
    exact ⟨_, rfl, (σ.staysKnown_afterFrames _).setBuf _⟩
  · exact ⟨σ, he.session.trans hs, .refl σ⟩

/-- Settles O53: no frame and no move of the host makes a register unknown again. -/
theorem knownRegistersStayKnown : Obligations.KnownRegistersStayKnown := by
  intro s t σ u rest hpend hlink hs hstep
  rw [step, hpend] at hstep
  obtain ⟨τ, hτ, hk⟩ := perform_staysKnown (s := s.setPending rest) hlink hs hstep
  exact ⟨τ, hτ, hk.totalVoltage, hk.remainingCapacity, hk.nominalCapacity, hk.cycleCount, hk.chargeEnabled, hk.dischargeEnabled,
    hk.devicePasscode, hk.passcode, hk.setupPasscode⟩

end Sys2Proof.Machine
end

section
/-! The decoders (43_field_decoder.md, 44_variant_detector.md) and what becomes of one frame (45_dispatch.md): each operation as one
equation, and the registers it writes. -/

namespace Sys2Proof.Machine

/-! ## DISPATCH and the two decoders, in a session -/

section
variable {s : State} {σ : Session} (hs : s.session = some σ)
include hs

theorem decodeStatusOp_eq {f : InboundFrame} (hf : f.wellFormed = true) :
    decodeStatusOp f s =
      if f.kind = 0x02#8 then .next (s.received (σ.decodeStatus f.payload) [(σ.decodeStatus f.payload).statusEvent])
      else .refused .wrongKind := by
  simp only [decodeStatusOp, inSession_some hs, hf, Bool.not_true, Bool.false_eq_true, if_false]
  rfl

theorem detectVariantOp_eq {f : InboundFrame} (hf : f.wellFormed = true) :
    detectVariantOp f s =
      if f.kind = 0x03#8 then .next (s.received (σ.detectVariant f.payload) [(σ.detectVariant f.payload).credentialsEvent])
      else .refused .wrongKind := by
  simp only [detectVariantOp, inSession_some hs, hf, Bool.not_true, Bool.false_eq_true, if_false]
  rfl

/-- `DISPATCH` by the kind of the frame (R135). -/
theorem dispatchOp_eq (f : InboundFrame) :
    dispatchOp f s =
      if f.kind = 0x02#8 then decodeStatusOp f s else if f.kind = 0x03#8 then detectVariantOp f s else .next s := by
  rw [dispatchOp, inSession_some hs]

/-- A frame is emitted before it is dispatched (R76, D17). -/
theorem receiveFrame_eq_dispatchOp {f : InboundFrame} (hf : f.wellFormed = true) :
    receiveFrame f s = dispatchOp f (s.emit (.frame f)) := by
  rw [receiveFrame, inSession_some hs, if_pos hf]

end

/-- A 300-byte run behind the header, with its byte 4, by its parts. -/
theorem frame_parts_of_kind {f : List Byte} {kind : Byte} (hl : f.length = 300) (hm : f.take 4 = [0x55#8, 0xAA#8, 0xEB#8, 0x90#8])
    (hk : f[4]? = some kind) : ∃ body, f = rx300 kind body ∧ body.length = 295 := by
  obtain ⟨kind', body, rfl, hb⟩ := frame_parts hl hm
  cases hk
  exact ⟨body, rfl, hb⟩

/-- Running a cut frame is emitting and dispatching it. -/
theorem runFrame_eq_dispatchOp {f : List Byte} {kind : Byte} {s : State} {σ : Session} (hs : s.session = some σ) (hl : f.length = 300)
    (hm : f.take 4 = [0x55#8, 0xAA#8, 0xEB#8, 0x90#8]) (hk : f[4]? = some kind) :
    runFrame f s = dispatchOp ⟨kind, f⟩ (s.emit (.frame ⟨kind, f⟩)) := by
  obtain ⟨body, rfl, hb⟩ := frame_parts_of_kind hl hm hk
  exact (runFrame_eq kind hb s).trans (receiveFrame_eq_dispatchOp hs (frameOf_wellFormed kind hb))

/-- Settles O29: the frame event comes first, then the operation of the kind. -/
theorem cutFrameIsEmittedThenDispatched : Obligations.CutFrameIsEmittedThenDispatched := by
  intro f kind s hs hl hm hk
  obtain ⟨σ, hs⟩ := Option.isSome_iff_exists.1 hs
  rw [runFrame_eq_dispatchOp hs hl hm hk]
  exact dispatchOp_eq (s := s.emit (.frame ⟨kind, f⟩)) hs ⟨kind, f⟩

/-- Settles O30: a well-formed frame of another kind leaves each decoder its last branch. -/
theorem decodersRefuseOtherKinds : Obligations.DecodersRefuseOtherKinds := by
  intro f s hs hf
  obtain ⟨σ, hs⟩ := Option.isSome_iff_exists.1 hs
  exact ⟨fun hk => by rw [decodeStatusOp_eq hs hf, if_neg hk], fun hk => by rw [detectVariantOp_eq hs hf, if_neg hk]⟩

/-! ## The registers of DECODE_STATUS -/

/-- What a register holds after its row: the value read if the frame contains the field, and else the one it had (R110). -/
def ifContained {α : Type} (spec : Config.FieldSpec) (off : Nat) (read held : α) : α :=
  if spec.nominal + off + spec.width ≤ 300 then read else held

section
variable (frame : List Byte) (σ : Session) (spec : Config.FieldSpec)

/-! One row of the field table writes its register and leaves the rest (R109). -/

theorem Session.decodeRow_totalVoltage :
    σ.decodeRow frame ⟨spec, .totalVoltage⟩ = { σ with
      totalVoltage :=
        ifContained spec σ.variantOffset (some (rdUnsigned frame (spec.nominal + σ.variantOffset) spec.width)) σ.totalVoltage } := by
  simp only [Session.decodeRow, fieldContained, ifContained, decide_eq_true_eq]; split <;> rfl

theorem Session.decodeRow_remainingCapacity :
    σ.decodeRow frame ⟨spec, .remainingCapacity⟩ = { σ with
      remainingCapacity :=
        ifContained spec σ.variantOffset (some (rdUnsigned frame (spec.nominal + σ.variantOffset) spec.width)) σ.remainingCapacity } := by
  simp only [Session.decodeRow, fieldContained, ifContained, decide_eq_true_eq]; split <;> rfl

theorem Session.decodeRow_nominalCapacity :
    σ.decodeRow frame ⟨spec, .nominalCapacity⟩ = { σ with
      nominalCapacity :=
        ifContained spec σ.variantOffset (some (rdUnsigned frame (spec.nominal + σ.variantOffset) spec.width)) σ.nominalCapacity } := by
  simp only [Session.decodeRow, fieldContained, ifContained, decide_eq_true_eq]; split <;> rfl

theorem Session.decodeRow_cycleCount :
    σ.decodeRow frame ⟨spec, .cycleCount⟩ = { σ with
      cycleCount :=
        ifContained spec σ.variantOffset (some (rdUnsigned frame (spec.nominal + σ.variantOffset) spec.width)) σ.cycleCount } := by
  simp only [Session.decodeRow, fieldContained, ifContained, decide_eq_true_eq]; split <;> rfl

theorem Session.decodeRow_chargeEnabled :
    σ.decodeRow frame ⟨spec, .chargeEnabled⟩ = { σ with
      chargeEnabled :=
        ifContained spec σ.variantOffset (some (rdFlag frame (spec.nominal + σ.variantOffset) spec.width)) σ.chargeEnabled } := by
  simp only [Session.decodeRow, fieldContained, ifContained, decide_eq_true_eq]; split <;> rfl

theorem Session.decodeRow_dischargeEnabled :
    σ.decodeRow frame ⟨spec, .dischargeEnabled⟩ = { σ with
      dischargeEnabled :=
        ifContained spec σ.variantOffset (some (rdFlag frame (spec.nominal + σ.variantOffset) spec.width)) σ.dischargeEnabled } := by
  simp only [Session.decodeRow, fieldContained, ifContained, decide_eq_true_eq]; split <;> rfl

/-- The six registers after `DECODE_STATUS`, for any offset at all: each by its own bound (R108 to R110, D27). -/
theorem Session.decodeStatus_eq :
    σ.decodeStatus frame = { σ with
      totalVoltage := if 118 + σ.variantOffset + 4 ≤ 300 then some (rdU32 frame (118 + σ.variantOffset)) else σ.totalVoltage
      remainingCapacity := if 142 + σ.variantOffset + 4 ≤ 300 then some (rdU32 frame (142 + σ.variantOffset)) else σ.remainingCapacity
      nominalCapacity := if 146 + σ.variantOffset + 4 ≤ 300 then some (rdU32 frame (146 + σ.variantOffset)) else σ.nominalCapacity
      cycleCount := if 150 + σ.variantOffset + 4 ≤ 300 then some (rdU32 frame (150 + σ.variantOffset)) else σ.cycleCount
      chargeEnabled := if 166 + σ.variantOffset + 1 ≤ 300 then some (rdBool frame (166 + σ.variantOffset)) else σ.chargeEnabled
      dischargeEnabled := if 167 + σ.variantOffset + 1 ≤ 300 then some (rdBool frame (167 + σ.variantOffset)) else σ.dischargeEnabled } := by
  simp only [Session.decodeStatus, fieldTable, List.foldl_cons, List.foldl_nil, Session.decodeRow_totalVoltage,
    Session.decodeRow_remainingCapacity, Session.decodeRow_nominalCapacity, Session.decodeRow_cycleCount,
    Session.decodeRow_chargeEnabled, Session.decodeRow_dischargeEnabled]
  rfl

/-- Up to offset 132, the legal ones among them, no bound fails: all six are written (R111). -/
theorem Session.decodeStatus_eq_of_le (h : σ.variantOffset ≤ 132) :
    σ.decodeStatus frame = { σ with
      totalVoltage := some (rdU32 frame (118 + σ.variantOffset))
      remainingCapacity := some (rdU32 frame (142 + σ.variantOffset))
      nominalCapacity := some (rdU32 frame (146 + σ.variantOffset))
      cycleCount := some (rdU32 frame (150 + σ.variantOffset))
      chargeEnabled := some (rdBool frame (166 + σ.variantOffset))
      dischargeEnabled := some (rdBool frame (167 + σ.variantOffset)) } := by
  rw [Session.decodeStatus_eq, if_pos (by omega), if_pos (by omega), if_pos (by omega), if_pos (by omega), if_pos (by omega),
    if_pos (by omega)]

end

/-- A legal offset is far below the bound of every field (R25, R111). -/
theorem le_of_legal_offset {off : Nat} (h : off ∈ [0, 16, 32]) : off ≤ 132 := by
  simp at h; omega

/-- Settles O23: the six bounds of `decodeStatus_eq`. -/
theorem uncontainedFieldKeepsLastValue : Obligations.UncontainedFieldKeepsLastValue := by
  intro f s σ hs hf hk off
  refine ⟨σ.decodeStatus f.payload, ?_, σ.decodeStatus_eq f.payload⟩
  rw [decodeStatusOp_eq hs hf, if_pos hk]
  rfl

/-! ## The frames as instructions -/

theorem exec_frmStatus {s : State} {σ : Session} (hs : s.session = some σ) {body : List Byte} (hb : body.length = 295) :
    exec (.frmStatus body) s =
      .next (s.received (σ.decodeStatus (rx300 0x02#8 body))
        [.frame (frameOf 0x02#8 body), (σ.decodeStatus (rx300 0x02#8 body)).statusEvent]) :=
  receiveFrame_eq hs (frameOf_wellFormed 0x02#8 hb)

theorem exec_frmInfo {s : State} {σ : Session} (hs : s.session = some σ) {body : List Byte} (hb : body.length = 295) :
    exec (.frmInfo body) s =
      .next (s.received (σ.detectVariant (rx300 0x03#8 body))
        [.frame (frameOf 0x03#8 body), (σ.detectVariant (rx300 0x03#8 body)).credentialsEvent]) :=
  receiveFrame_eq hs (frameOf_wellFormed 0x03#8 hb)

theorem exec_frmOther {s : State} {σ : Session} (hs : s.session = some σ) {kind : Byte} {body : List Byte} (hb : body.length = 295)
    (h2 : kind ≠ 0x02#8) (h3 : kind ≠ 0x03#8) : exec (.frmOther kind body) s = .next (s.emit (.frame (frameOf kind body))) := by
  refine (receiveFrame_eq_dispatchOp hs (frameOf_wellFormed kind hb)).trans ?_
  rw [dispatchOp_eq (s := s.emit (.frame (frameOf kind body))) hs]
  exact (if_neg h2).trans (if_neg h3)

/-- Settles O22: a legal offset keeps every field inside the frame. -/
theorem statusFrameWritesAllSix : Obligations.StatusFrameWritesAllSix := by
  intro body s σ hs hb hoff f off
  rw [exec_frmStatus hs hb, Session.decodeStatus_eq_of_le _ σ (le_of_legal_offset hoff)]
  rfl

/-- Settles O24: the status frame's first field is the number its four bytes spell, at the scale of its row. -/
theorem totalVoltageRoundTrip : Obligations.TotalVoltageRoundTrip := by
  refine ⟨fun body s σ hs hb hoff hbytes => ?_, fun raw => ⟨rfl, rfl, rfl, rfl⟩⟩
  have hraw : (rdU32 (rx300 0x02#8 body) (118 + σ.variantOffset)).toNat = 12345 := by
    rw [← rdUnsigned_four, rdUnsigned_toNat _ le_rfl, Nat.add_right_comm]
    exact congrArg leValue hbytes
  refine ⟨_, _, _, exec_frmStatus hs hb, rfl, ?_, hraw, ?_⟩
  · rw [Session.decodeStatus_eq_of_le _ σ (le_of_legal_offset hoff)]
  · show some (_ / 1000) = _
    rw [hraw]
    rfl

/-- Settles O25: the registers and the event of `DETECT_VARIANT` with the ranges of R121 and R126 written out. -/
theorem infoFrameWritesVariantAndCredentials : Obligations.InfoFrameWritesVariantAndCredentials := by
  intro body s σ hs hb f
  exact exec_frmInfo hs hb

/-- Settles O28: `DISPATCH` has nothing to do for the other kinds. -/
theorem otherFramePassesUndecoded : Obligations.OtherFramePassesUndecoded := by
  intro kind body s hs hb h2 h3
  obtain ⟨σ, hs⟩ := Option.isSome_iff_exists.1 hs
  exact exec_frmOther hs hb h2 h3

end Sys2Proof.Machine
end

section
/-! Strings: where `rd_cstr` stops (R107), and the string tests of the variant table as the library's relations `<+:` and `<:+:` (R122, R123). -/

namespace Sys2Proof

theorem slice_getElem? (s : List Byte) (lo hi k : Nat) : (slice s lo hi)[k]? = if k < hi - lo then s[lo + k]? else none := by
  rw [slice, List.getElem?_take, List.getElem?_drop]

/-- The index in the range at which `rd_cstr` stops: that of its first null, or the range's end. -/
def stopIndex (frame : List Byte) (lo hi : Nat) : Nat := (slice frame lo hi).findIdx fun b => !(b != 0x00#8)

theorem stopIndex_le (frame : List Byte) (lo hi : Nat) : stopIndex frame lo hi ≤ hi - lo := by
  have hle : stopIndex frame lo hi ≤ (slice frame lo hi).length := List.findIdx_le_length
  rw [slice_length] at hle
  omega

theorem rdCstr_eq_slice (frame : List Byte) (lo hi : Nat) :
    rdCstr frame lo hi = slice frame lo (lo + stopIndex frame lo hi) := by
  have hle := stopIndex_le frame lo hi
  rw [rdCstr, List.takeWhile_eq_take_findIdx_not, slice, slice, List.take_take, Nat.add_sub_cancel_left]
  exact congrArg (fun n => List.take n (frame.drop lo)) (Nat.min_eq_left hle)

/-- No null stands before the stop. -/
theorem ne_null_of_lt_stopIndex {frame : List Byte} {lo hi k : Nat} (hk : k < stopIndex frame lo hi) :
    (slice frame lo hi)[k]? ≠ some 0x00#8 := by
  intro h0
  obtain ⟨hlen, h0⟩ := List.getElem?_eq_some_iff.1 h0
  have hnot := List.not_of_lt_findIdx hk
  simp [h0] at hnot

/-- A stop before the range's end is at a null. -/
theorem null_at_stopIndex {frame : List Byte} {lo hi : Nat} (h : stopIndex frame lo hi < (slice frame lo hi).length) :
    (slice frame lo hi)[stopIndex frame lo hi]? = some 0x00#8 := by
  have hp : (!((slice frame lo hi)[stopIndex frame lo hi] != 0x00#8)) = true := List.findIdx_getElem (w := h)
  rw [List.getElem?_eq_getElem h]
  simpa using hp

/-- `starts_with` is `<+:` of byte sequences (R122). -/
theorem startsWith_iff (s t : List Byte) : startsWith s t = true ↔ t <+: s := by
  rw [startsWith, Bool.and_eq_true, decide_eq_true_eq, decide_eq_true_eq, List.prefix_iff_eq_take]
  constructor
  · exact fun h => h.2.symm
  · intro h
    refine ⟨?_, h.symm⟩
    rw [h, List.length_take]
    exact min_le_right _ _

/-- `contains` is `<:+:` of byte sequences (R122). -/
theorem containsBytes_iff (s t : List Byte) : containsBytes s t = true ↔ t <:+: s := by
  induction s with
  | nil => rw [containsBytes, startsWith_iff, List.prefix_nil, List.infix_nil]
  | cons b bs ih => rw [containsBytes, Bool.or_eq_true, startsWith_iff, ih, List.infix_cons_iff]

end Sys2Proof

namespace Sys2Proof.Machine

/-- Settles O21: the string ends at `stopIndex`. -/
theorem stringStopsAtFirstNull : Obligations.StringStopsAtFirstNull := by
  intro frame lo hi hlohi hhi
  have hle := stopIndex_le frame lo hi
  have hok := rdCstr_credentialOk frame (le_refl (hi - lo))
  simp only [credentialOk, Bool.and_eq_true, decide_eq_true_eq, List.all_eq_true, bne_iff_ne] at hok
  obtain ⟨hlen, hnull⟩ := hok
  refine ⟨lo + stopIndex frame lo hi, by omega, by omega, rdCstr_eq_slice frame lo hi, ?_, ?_, hlen, fun h => hnull _ h rfl⟩
  · intro k hk hkj
    have hne := ne_null_of_lt_stopIndex (frame := frame) (lo := lo) (hi := hi) (k := k - lo) (by omega)
    rwa [slice_getElem?, if_pos (by omega), Nat.add_sub_cancel' hk] at hne
  · intro hj
    have hat := null_at_stopIndex (frame := frame) (lo := lo) (hi := hi) (by rw [slice_length]; omega)
    rwa [slice_getElem?, if_pos (by omega)] at hat

/-- The decision table with its literals written out and its tests as relations (R123). -/
theorem selectVariant_eq (vendor firmware : List Byte) :
    selectVariant vendor firmware =
      if [0x4A#8, 0x4B#8, 0x5F#8, 0x42#8, 0x44#8] <+: vendor ∨ [0x31#8, 0x31#8, 0x2E#8] <+: firmware then 32
      else if [0x4A#8, 0x4B#8, 0x5F#8, 0x42#8, 0x32#8, 0x41#8] <+: vendor ∨ [0x33#8, 0x32#8, 0x53#8] <:+: vendor then 16
      else 0 := by
  simp only [selectVariant, Bool.or_eq_true, startsWith_iff, containsBytes_iff]

/-- Settles O26: the rows in their order, and two literals of which neither begins the other. -/
theorem variantDecisionTable : Obligations.VariantDecisionTable := by
  intro vendor firmware jkBd eleven jkB2a s32
  rw [selectVariant_eq]
  refine ⟨fun h => if_pos h, fun h h' => ?_, fun h h' => ?_, fun ⟨h, h'⟩ => ?_⟩
  · rw [if_neg h, if_pos h']
  · rw [if_neg h, if_neg h']
  · have hlit : jkBd <+: jkB2a := List.prefix_of_prefix_length_le h h' (by decide)
    exact absurd hlit (by decide)

/-- Settles O27: the five examples run. -/
theorem variantExamples : Obligations.VariantExamples := by
  unfold Obligations.VariantExamples
  decide

end Sys2Proof.Machine
end

section
/-! The Frame Reassembler (41_reassembler.md): where the first header stands, what FR cuts from a sequence and its continuation, and `FEED`
as the receiving of the frames cut. -/

namespace Sys2Proof

/-! ## find (R81) -/

theorem slice_cons_succ (b : Byte) (bs : List Byte) (lo n : Nat) : slice (b :: bs) (lo + 1) (lo + 1 + n) = slice bs lo (lo + n) := by
  rw [slice, slice, List.drop_succ_cons, Nat.add_sub_cancel_left, Nat.add_sub_cancel_left]

theorem findHeader_eq_none_iff (buf : List Byte) : findHeader buf = none ↔ ∀ j, slice buf j (j + 4) ≠ Config.rxMagic := by
  induction buf with
  | nil => simp [slice]
  | cons b bs ih =>
    rw [findHeader_cons]
    by_cases hm : (b :: bs).take 4 = Config.rxMagic
    · rw [if_pos hm]
      exact ⟨fun h => (by cases h), fun h => absurd hm (h 0)⟩
    · rw [if_neg hm, Option.map_eq_none_iff, ih]
      refine ⟨fun h j => ?_, fun h j => slice_cons_succ b bs j 4 ▸ h (j + 1)⟩
      cases j with
      | zero => exact hm
      | succ j => rw [slice_cons_succ]; exact h j

theorem findHeader_eq_some_iff (buf : List Byte) (i : Nat) :
    findHeader buf = some i ↔ slice buf i (i + 4) = Config.rxMagic ∧ ∀ j, j < i → slice buf j (j + 4) ≠ Config.rxMagic := by
  induction buf generalizing i with
  | nil => simp [slice]
  | cons b bs ih =>
    rw [findHeader_cons]
    by_cases hm : (b :: bs).take 4 = Config.rxMagic
    · rw [if_pos hm]
      constructor
      · intro h
        cases h
        exact ⟨hm, fun j hj => absurd hj (Nat.not_lt_zero j)⟩
      · rintro ⟨-, hlow⟩
        cases i with
        | zero => rfl
        | succ i => exact absurd hm (hlow 0 (Nat.succ_pos i))
    · rw [if_neg hm, Option.map_eq_some_iff]
      constructor
      · rintro ⟨i, hi, rfl⟩
        obtain ⟨hat, hlow⟩ := (ih i).1 hi
        refine ⟨(slice_cons_succ b bs i 4).trans hat, fun j hj => ?_⟩
        cases j with
        | zero => exact hm
        | succ j => rw [slice_cons_succ]; exact hlow j (Nat.lt_of_succ_lt_succ hj)
      · rintro ⟨hat, hlow⟩
        cases i with
        | zero => exact absurd hat hm
        | succ i =>
          refine ⟨i, (ih i).2 ⟨(slice_cons_succ b bs i 4).symm.trans hat, fun j hj => ?_⟩, rfl⟩
          exact slice_cons_succ b bs j 4 ▸ hlow (j + 1) (Nat.succ_lt_succ hj)

/-- No header is found exactly where none stands anywhere. -/
theorem findHeader_eq_none_iff_not_infix (buf : List Byte) : findHeader buf = none ↔ ¬ Config.rxMagic <:+: buf := by
  induction buf with
  | nil => simp
  | cons b bs ih =>
    rw [findHeader_cons, List.infix_cons_iff, List.prefix_iff_eq_take, not_or, ← ih, eq_comm (a := Config.rxMagic)]
    by_cases hm : (b :: bs).take 4 = Config.rxMagic
    · simp [hm]
    · rw [if_neg hm, Option.map_eq_none_iff]
      exact ⟨fun h => ⟨hm, h⟩, fun h => h.2⟩

end Sys2Proof

namespace Sys2Proof.Machine

/-- Settles O35: the header at the found index and at no lower one. -/
theorem findReturnsFirstHeader : Obligations.FindReturnsFirstHeader :=
  fun buf => ⟨findHeader_eq_some_iff buf, findHeader_eq_none_iff buf⟩

/-! ## Cutting -/

/-- A whole frame at the front is cut, and the rest is searched alone (R80). -/
theorem reassemble_frame_append {f : List Byte} (hl : f.length = 300) (hm : f.take 4 = Config.rxMagic) (rest : List Byte) :
    reassemble (f ++ rest) = (f :: (reassemble rest).1, (reassemble rest).2) := by
  have hfind : findHeader (f ++ rest) = some 0 := findHeader_append (findHeader_eq_zero.2 hm) rest
  rw [reassemble_cut hfind (by rw [List.length_append]; omega), List.take_left' hl, List.drop_left' hl]

/-- At rest there is nothing to cut (R83, R85). -/
theorem reassemble_of_atRest {buf : List Byte} (h : atRest buf = true) : reassemble buf = ([], buf) := by
  simp only [atRest, Bool.or_eq_true, Bool.and_eq_true, decide_eq_true_eq] at h
  obtain hnone | ⟨hzero, hl⟩ := h
  · exact reassemble_none hnone
  · exact reassemble_short hzero hl

/-- Cutting can stop at any byte and go on from the residual buffer: the frames are those of the two parts in order (R84). -/
theorem reassemble_append (a b : List Byte) :
    reassemble (a ++ b) =
      ((reassemble a).1 ++ (reassemble ((reassemble a).2 ++ b)).1, (reassemble ((reassemble a).2 ++ b)).2) := by
  induction a using reassemble_induction with
  | notFound a h => rw [reassemble_none h]; rfl
  | short a h hl => rw [reassemble_short h hl]; rfl
  | cut a h hl ih =>
    rw [reassemble_cut h hl, reassemble_cut (findHeader_append h b) (by rw [List.length_append]; omega),
      List.take_append_of_le_length hl, List.drop_append_of_le_length hl, ih]
    rfl
  | skip a i h ih =>
    have hlt := findHeader_lt h
    rw [reassemble_skip h, reassemble_skip (findHeader_append h b), List.drop_append_of_le_length (by omega), ih]

/-- Every frame cut takes 300 bytes (R82). -/
theorem reassemble_length_le (buf : List Byte) : 300 * (reassemble buf).1.length + (reassemble buf).2.length ≤ buf.length := by
  induction buf using reassemble_induction with
  | notFound buf h => simp [reassemble_none h]
  | short buf h hl => simp [reassemble_short h hl]
  | cut buf h hl ih =>
    rw [reassemble_cut h hl]
    simp only [List.length_cons, List.length_drop] at ih ⊢
    omega
  | skip buf i h ih =>
    rw [reassemble_skip h]
    exact ih.trans (by rw [List.length_drop]; omega)

/-- A byte at which no header stands changes no frame (R78). -/
theorem reassemble_cons_frames {b : Byte} {bs : List Byte} (h : (b :: bs).take 4 ≠ Config.rxMagic) :
    (reassemble (b :: bs)).1 = (reassemble bs).1 := by
  have hfind : findHeader (b :: bs) = (findHeader bs).map (· + 1) := by rw [findHeader_cons, if_neg h]
  cases hbs : findHeader bs with
  | none =>
    rw [hbs] at hfind
    rw [reassemble_none hfind, reassemble_none hbs]
  | some i =>
    rw [hbs] at hfind
    rw [reassemble_skip hfind, reassemble_skip hbs, List.drop_succ_cons]

/-- Settles O42: byte by byte from the front, as long as four bytes of junk are left to tell that no header stands there. -/
theorem onlyLastThreeJunkBytesMatter : Obligations.OnlyLastThreeJunkBytesMatter := by
  intro junk later hj
  induction junk with
  | nil => rfl
  | cons b bs ih =>
    rw [findHeader_cons] at hj
    split at hj
    case isTrue => cases hj
    case isFalse hm =>
      rw [Option.map_eq_none_iff] at hj
      by_cases hlen : bs.length < 3
      · rw [show (b :: bs).length - 3 = 0 by rw [List.length_cons]; omega, List.drop_zero]
      · have hm' : (b :: (bs ++ later)).take 4 ≠ Config.rxMagic := by
          rw [← List.cons_append, List.take_append_of_le_length (by rw [List.length_cons]; omega)]
          exact hm
        rw [show (b :: bs).length - 3 = bs.length - 3 + 1 by rw [List.length_cons]; omega, List.drop_succ_cons, ← ih hj]
        exact reassemble_cons_frames hm'

/-! ## FEED as receiving -/

/-- Receiving frames FR has cut answers next, with their registers and events. -/
theorem receiveAll_eq {fs : List (List Byte)} (hfs : ∀ f ∈ fs, f.length = 300 ∧ f.take 4 = Config.rxMagic) {s : State} {σ : Session}
    (hs : s.session = some σ) : receiveAll fs s = .next (s.received (σ.afterFrames fs) (σ.framesEvents fs)) := by
  induction fs generalizing s σ with
  | nil => exact congrArg _ (received_nil hs).symm
  | cons f fs ih =>
    obtain ⟨hl, hm⟩ := hfs f (List.mem_cons_self ..)
    rw [receiveAll, runFrame_next hl hm hs, andThen_next,
      ih (fun g hg => hfs g (List.mem_cons_of_mem f hg)) (State.received_session _ _ _), State.received_received]
    rfl

/-- Settles O36: both sides leave the registers and the events of the frames cut. -/
theorem feedReceivesCutFramesInOrder : Obligations.FeedReceivesCutFramesInOrder := by
  intro chunk s σ hs
  rw [feed_eq hs, receiveAll_eq (reassemble_frames _) (σ := σ.setBuf (reassemble (σ.buf ++ chunk)).2) rfl,
    Session.afterFrames_setBuf, Session.framesEvents_setBuf]
  rfl

theorem State.setAnswer_received (s : State) (σ : Session) (es : List Event) (a : Answer) :
    (s.received σ es).setAnswer a = (s.setAnswer a).received σ es := rfl

theorem State.setAnswer_setAnswer (s : State) (a b : Answer) : (s.setAnswer a).setAnswer b = s.setAnswer b := rfl

/-- Settles O34: the first frame cut is run, and `FEED` of nothing goes on with the rest (R80). -/
theorem feedEmitsWholeFrame : Obligations.FeedEmitsWholeFrame := by
  intro chunk f rest kind s σ hs hbuf hl hm hk
  have hrun := runFrame_eq_dispatchOp (s := { s with session := some (σ.setBuf rest), answer := .done }) rfl hl hm hk
  rw [runFrame_next hl hm rfl] at hrun
  refine Eq.trans ?_ (congrArg (andThen · (feed [])) hrun)
  rw [andThen_next, feed_eq hs, feed_eq (State.received_session _ _ _), hbuf, reassemble_frame_append hl hm,
    Session.afterFrame_buf, Session.setBuf_buf, List.append_nil]
  simp only [Session.afterFrames, Session.framesEvents, Session.afterFrame_setBuf, Session.frameEvents_setBuf,
    Session.afterFrames_setBuf, Session.framesEvents_setBuf, Session.setBuf_setBuf, State.setAnswer_received,
    State.received_received]
  rfl

/-! ## The output and the rest state of a FEED -/

/-- Every frame is one `frame` event. -/
theorem countP_isFrame_framesEvents (fs : List (List Byte)) (σ : Session) : (σ.framesEvents fs).countP Event.isFrame = fs.length := by
  induction fs generalizing σ with
  | nil => rfl
  | cons f fs ih =>
    have hone : (σ.frameEvents (asFrame f)).countP Event.isFrame = 1 := by
      unfold Session.frameEvents
      split <;> [skip; split] <;> rfl
    rw [Session.framesEvents, List.countP_append, hone, ih, List.length_cons, Nat.add_comm]

/-- Settles O37: one `frame` event per frame cut, each of 300 bytes. -/
theorem feedEndsWithBoundedOutput : Obligations.FeedEndsWithBoundedOutput := by
  intro chunk s σ hs
  refine ⟨_, σ.framesEvents (reassemble (σ.buf ++ chunk)).1, feed_eq hs chunk, rfl, ?_⟩
  have hlen := reassemble_length_le (σ.buf ++ chunk)
  rw [countP_isFrame_framesEvents]
  omega

/-- Settles O38: FR's residual buffer is at rest, and a header at index 0 has its four bytes. -/
theorem feedLeavesRestState : Obligations.FeedLeavesRestState := by
  intro chunk s hs
  obtain ⟨σ, hs⟩ := Option.isSome_iff_exists.1 hs
  refine ⟨_, _, feed_eq hs chunk, rfl, ?_⟩
  have hrest := reassemble_atRest (σ.buf ++ chunk)
  simp only [atRest, Bool.or_eq_true, Bool.and_eq_true, decide_eq_true_eq] at hrest
  obtain hnone | ⟨hzero, hl⟩ := hrest
  · exact .inl hnone
  · exact .inr ⟨hzero, findHeader_lt hzero, hl⟩

/-- Settles O40: at rest FR cuts nothing and keeps the buffer. -/
theorem feedNothingAtRest : Obligations.FeedNothingAtRest := by
  intro s σ hs hrest
  rw [feed_of_reassemble_no_frames hs (b := σ.buf) (by rw [List.append_nil, reassemble_of_atRest hrest]), ← hs]

/-! ## Chunking -/

/-- Two chunks in a row are one (R84). -/
theorem feed_feed {s : State} {σ : Session} (hs : s.session = some σ) (a b : List Byte) :
    andThen (feed a s) (feed b) = feed (a ++ b) s := by
  rw [feed_eq hs a, feed_eq hs (a ++ b), andThen_next, feed_eq (State.received_session _ _ _), ← List.append_assoc,
    reassemble_append (σ.buf ++ a) b]
  simp only [Session.setBuf_buf, Session.afterFrames_setBuf, Session.framesEvents_setBuf, Session.setBuf_setBuf,
    Session.afterFrames_append, Session.framesEvents_append, State.setAnswer_received, State.setAnswer_setAnswer,
    State.received_received]

/-- In a session `FEED` answers next, in a session. -/
theorem feed_next {s : State} {σ : Session} (hs : s.session = some σ) (chunk : List Byte) :
    ∃ t τ, feed chunk s = .next t ∧ t.session = some τ := ⟨_, _, feed_eq hs chunk, rfl⟩

/-- Settles O39: chunk by chunk, each put together with the one before it. -/
theorem chunkingInvariance : Obligations.ChunkingInvariance := by
  intro chunks s hlive hne
  obtain ⟨σ, hs⟩ := Option.isSome_iff_exists.1 hlive
  clear hlive
  induction chunks generalizing s σ with
  | nil => exact absurd rfl hne
  | cons c cs ih =>
    obtain ⟨t, τ, ht, hτ⟩ := feed_next hs c
    rw [feedAll, ht, andThen_next, List.flatten_cons]
    cases cs with
    | nil => rw [List.flatten_nil, List.append_nil, ht]; rfl
    | cons c' cs => rw [ih (s := t) (List.cons_ne_nil c' cs) τ hτ, ← feed_feed hs, ht, andThen_next]

/-! ## A truncated frame -/

theorem receiveAll_singleton (f : List Byte) (s : State) : receiveAll [f] s = runFrame f s := by
  rw [receiveAll]
  cases runFrame f s <;> rfl

/-- A `FEED` that completes one frame is that frame run, with FR's residual buffer left. -/
theorem feed_of_reassemble_one_frame {chunk f b : List Byte} {s : State} {σ : Session} (hs : s.session = some σ)
    (hr : reassemble (σ.buf ++ chunk) = ([f], b)) :
    feed chunk s = runFrame f { s with session := some { σ with buf := b }, answer := .done } := by
  rw [feedReceivesCutFramesInOrder chunk s σ hs, hr, receiveAll_singleton]

/-- Settles O41: the truncated frame and the head of its successor are the one frame cut; the tail holds no header. -/
theorem truncatedFrameSwallowsSuccessor : Obligations.TruncatedFrameSwallowsSuccessor := by
  intro a b s σ hs hbuf hm hla hlb htail
  refine feed_of_reassemble_one_frame hs ?_
  have hl : (a ++ b.take (300 - a.length)).length = 300 := by
    rw [List.length_append, List.length_take]; omega
  have hsplit : a ++ b = (a ++ b.take (300 - a.length)) ++ b.drop (300 - a.length) := by
    rw [List.append_assoc, List.take_append_drop]
  have hhead : (a ++ b.take (300 - a.length)).take 4 = Config.rxMagic :=
    findHeader_eq_zero.1 (findHeader_append (findHeader_eq_zero.2 hm) _)
  rw [hbuf, List.nil_append, hsplit, reassemble_frame_append hl hhead, reassemble_none htail]

end Sys2Proof.Machine
end

section
/-! The byte-serial machine (R89) against FR: a relation between its registers and FR's residual buffer that one byte keeps, whatever it is. -/

namespace Sys2Proof

/-! ## A sequence and one more byte -/

/-- With one byte more, a header stands in the sequence only if it ends it. -/
theorem findHeader_concat_eq_none {r : List Byte} (hr : findHeader r = none) {b : Byte} (h : ¬ Config.rxMagic <:+ r ++ [b]) :
    findHeader (r ++ [b]) = none := by
  rw [findHeader_eq_none_iff_not_infix] at hr ⊢
  rw [List.infix_concat_iff, not_or]
  exact ⟨h, hr⟩

/-- A header that ends with the last byte is the first one: nothing of it is left out by dropping what precedes it. -/
theorem drop_findHeader_concat {r : List Byte} (hr : findHeader r = none) {b : Byte} {i : Nat} (hi : findHeader (r ++ [b]) = some i) :
    (r ++ [b]).drop i = Config.rxMagic := by
  have hhead : ((r ++ [b]).drop i).take 4 = Config.rxMagic := findHeader_eq_zero.1 (findHeader_drop hi)
  have hlen := findHeader_lt hi
  rw [List.length_append, List.length_singleton] at hlen
  by_cases hin : i + 4 ≤ r.length
  · rw [List.drop_append_of_le_length (by omega), List.take_append_of_le_length (by rw [List.length_drop]; omega)] at hhead
    refine absurd ?_ ((findHeader_eq_none_iff_not_infix r).1 hr)
    rw [← hhead]
    exact (List.take_prefix 4 _).isInfix.trans (List.drop_suffix i r).isInfix
  · rwa [List.take_of_length_le (by rw [List.length_drop, List.length_append, List.length_singleton]; omega)] at hhead

/-- A start of `l` that ends the sequence with its last byte is that byte, behind a start that ended the sequence before. -/
theorem take_succ_suffix_concat {l r : List Byte} {b : Byte} {j : Nat} (hj : j < l.length) :
    l.take (j + 1) <:+ r ++ [b] ↔ l[j]? = some b ∧ l.take j <:+ r := by
  rw [List.take_succ_eq_append_getElem hj, List.suffix_concat_iff, List.getElem?_eq_getElem hj]
  constructor
  · rintro (h | ⟨t, ht, hsuf⟩)
    · exact absurd h (List.append_ne_nil_of_right_ne_nil _ (List.cons_ne_nil _ _))
    · obtain ⟨rfl, hb⟩ := List.append_inj' ht rfl
      exact ⟨congrArg some (List.cons.inj hb).1, hsuf⟩
  · rintro ⟨hb, hsuf⟩
    exact .inr ⟨l.take j, by rw [Option.some.inj hb], hsuf⟩

end Sys2Proof

namespace Sys2Proof.Machine

/-- The header count `k` of a machine that hunts: the length of the longest start of the header, short of a whole one, that ends the
bytes held (R89). -/
structure LongestHeaderStart (k : Nat) (r : List Byte) : Prop where
  le : k ≤ 3
  suffix : Config.rxMagic.take k <:+ r
  longest : ∀ j ≤ 3, Config.rxMagic.take j <:+ r → j ≤ k

/-- The registers of the byte-serial machine against FR's residual buffer: the frame collected so far, or no header yet and the count of
its bytes matched. -/
inductive Serial.Tracks (m : Serial) (r : List Byte) : Prop where
  | collecting (fr : m.fr = r) (found : findHeader r = some 0) (short : r.length < 300)
  | hunting (fr : m.fr = []) (notFound : findHeader r = none) (count : LongestHeaderStart m.k r)

theorem Serial.Tracks.atRest {m : Serial} {r : List Byte} (h : m.Tracks r) : atRest r = true := by
  cases h with
  | collecting _ found short => simp [Machine.atRest, found, short]
  | hunting _ notFound _ => simp [Machine.atRest, notFound]

/-- Nothing held, nothing matched. -/
theorem longestHeaderStart_nil : LongestHeaderStart 0 [] :=
  ⟨by decide, List.suffix_refl [], fun j hj h => by
    rw [List.suffix_nil, List.take_eq_nil_iff] at h
    obtain h | h := h
    · exact h.le
    · cases h⟩

theorem Serial.initial_tracks_nil : Serial.initial.Tracks [] := .hunting rfl rfl longestHeaderStart_nil

/-! ## One byte while the machine hunts -/

section
variable {r : List Byte} {k : Nat} (hk : LongestHeaderStart k r) {b : Byte}
include hk

/-- The next byte of the header: the count goes up. -/
theorem LongestHeaderStart.succ (hb : Config.rxMagic[k]? = some b) (hlt : k < 3) : LongestHeaderStart (k + 1) (r ++ [b]) := by
  refine ⟨hlt, (take_succ_suffix_concat (Nat.lt_succ_of_lt hlt)).2 ⟨hb, hk.suffix⟩, fun j hj hsuf => ?_⟩
  cases j with
  | zero => exact Nat.zero_le _
  | succ j => exact Nat.succ_le_succ (hk.longest j (by omega) ((take_succ_suffix_concat (show j < 4 by omega)).1 hsuf).2)

/-- The header does not overlap itself: after another byte than the next, a start of it that ends the bytes held is one byte long. -/
theorem LongestHeaderStart.eq_zero_of_mismatch (hb : Config.rxMagic[k]? ≠ some b) {j : Nat} (hj : j < 4)
    (hsuf : Config.rxMagic.take (j + 1) <:+ r ++ [b]) : j = 0 := by
  obtain ⟨hbyte, hsuf⟩ := (take_succ_suffix_concat hj).1 hsuf
  have hjk : j < k := by
    refine lt_of_le_of_ne ?_ fun heq => hb (heq ▸ hbyte)
    by_cases h3 : j ≤ 3
    · exact hk.longest j h3 hsuf
    · omega
  have hself : Config.rxMagic.take j <:+ Config.rxMagic.take k :=
    List.suffix_of_suffix_length_le hsuf hk.suffix (by rw [List.length_take, List.length_take]; omega)
  have hno : ∀ k ≤ 3, ∀ j < k, Config.rxMagic.take j <:+ Config.rxMagic.take k → j = 0 := by decide
  exact hno k hk.le j hjk hself

/-- Another byte than the next: the count starts again, at this byte if the header begins with it. -/
theorem LongestHeaderStart.restart (hb : Config.rxMagic[k]? ≠ some b) :
    LongestHeaderStart (if Config.rxMagic[0]? = some b then 1 else 0) (r ++ [b]) := by
  have hone : Config.rxMagic.take 1 <:+ r ++ [b] ↔ Config.rxMagic[0]? = some b := by
    rw [take_succ_suffix_concat (show 0 < 4 by omega)]
    exact and_iff_left (List.nil_suffix)
  refine ⟨by split <;> omega, ?_, fun j hj hsuf => ?_⟩
  · split
    case isTrue h => exact hone.2 h
    case isFalse => exact List.nil_suffix
  · cases j with
    | zero => exact Nat.zero_le _
    | succ j =>
      obtain rfl := hk.eq_zero_of_mismatch hb (by omega) hsuf
      rw [if_pos (hone.1 hsuf)]

/-- No whole header ends with this byte, unless three bytes of it were matched and this is the fourth. -/
theorem LongestHeaderStart.not_header (hb : ¬ (k = 3 ∧ Config.rxMagic[3]? = some b)) : ¬ Config.rxMagic <:+ r ++ [b] := by
  intro h
  obtain ⟨hbyte, hsuf⟩ := (take_succ_suffix_concat (l := Config.rxMagic) (j := 3) (by decide)).1 h
  have hle := hk.le
  have hge := hk.longest 3 le_rfl hsuf
  exact hb ⟨by omega, hbyte⟩

end

/-- The fourth byte of the header: FR drops what precedes it and waits for the rest of the frame (R78, R79). -/
theorem reassemble_concat_header {r : List Byte} (hr : findHeader r = none) {b : Byte} (h : Config.rxMagic <:+ r ++ [b]) :
    reassemble (r ++ [b]) = ([], Config.rxMagic) := by
  cases hi : findHeader (r ++ [b]) with
  | none => exact absurd h.isInfix ((findHeader_eq_none_iff_not_infix _).1 hi)
  | some i => rw [reassemble_skip hi, drop_findHeader_concat hr hi]; rfl

/-! ## One byte -/

/-- `push` by the registers: hunting. -/
theorem Serial.push_hunting (k : Nat) (b : Byte) :
    (⟨k, []⟩ : Serial).push b =
      if Config.rxMagic[k]? = some b then
        if k + 1 = 4 then (⟨0, Config.rxMagic⟩, []) else (⟨k + 1, []⟩, [])
      else if Config.rxMagic[0]? = some b then (⟨1, []⟩, []) else (⟨0, []⟩, []) := rfl

/-- `push` by the registers: collecting. -/
theorem Serial.push_collecting {m : Serial} (h : m.fr ≠ []) (b : Byte) :
    m.push b = if m.fr.length + 1 = 300 then (⟨0, []⟩, [m.fr ++ [b]]) else (⟨m.k, m.fr ++ [b]⟩, []) := by
  obtain ⟨k, fr⟩ := m
  cases fr with
  | nil => exact absurd rfl h
  | cons c cs => rfl

/-- The machine's registers and output follow FR's: it emits the frames FR cuts, and tracks the residual buffer FR leaves. -/
def Serial.Follows (p : Serial × List (List Byte)) (q : List (List Byte) × List Byte) : Prop := p.2 = q.1 ∧ p.1.Tracks q.2

theorem Serial.push_follows_collecting {m : Serial} (hfound : findHeader m.fr = some 0) (hshort : m.fr.length < 300) (b : Byte) :
    Serial.Follows (m.push b) (reassemble (m.fr ++ [b])) := by
  have hfind : findHeader (m.fr ++ [b]) = some 0 := findHeader_append hfound [b]
  have hne : m.fr ≠ [] := by
    intro hnil
    rw [hnil] at hfound
    cases hfound
  rw [Serial.push_collecting hne]
  split
  case isTrue hlast =>
    have hl : (m.fr ++ [b]).length = 300 := by rw [List.length_append]; exact hlast
    have hcut := reassemble_frame_append hl (findHeader_eq_zero.1 hfind) []
    rw [List.append_nil] at hcut
    rw [hcut]
    exact ⟨rfl, Serial.initial_tracks_nil⟩
  case isFalse hmore =>
    have hl : (m.fr ++ [b]).length < 300 := by rw [List.length_append, List.length_singleton]; omega
    rw [reassemble_short hfind hl]
    exact ⟨rfl, .collecting rfl hfind hl⟩

theorem Serial.push_follows_hunting {k : Nat} {r : List Byte} (hr : findHeader r = none) (hk : LongestHeaderStart k r) (b : Byte) :
    Serial.Follows ((⟨k, []⟩ : Serial).push b) (reassemble (r ++ [b])) := by
  rw [Serial.push_hunting]
  by_cases hb : Config.rxMagic[k]? = some b
  · rw [if_pos hb]
    by_cases h4 : k + 1 = 4
    · obtain rfl : k = 3 := by omega
      rw [if_pos h4, reassemble_concat_header hr ((take_succ_suffix_concat (l := Config.rxMagic) (by decide)).2 ⟨hb, hk.suffix⟩)]
      exact ⟨rfl, .collecting rfl rfl (by decide)⟩
    · have hnone := findHeader_concat_eq_none hr (hk.not_header (b := b) fun h => h4 (by omega))
      rw [if_neg h4, reassemble_none hnone]
      exact ⟨rfl, .hunting rfl hnone (hk.succ hb (by have := hk.le; omega))⟩
  · have hnone := findHeader_concat_eq_none hr (hk.not_header (b := b) fun h => hb (h.1 ▸ h.2))
    have hrestart := hk.restart hb
    rw [if_neg hb, reassemble_none hnone]
    split
    case isTrue h55 => rw [if_pos h55] at hrestart; exact ⟨rfl, .hunting rfl hnone hrestart⟩
    case isFalse h55 => rw [if_neg h55] at hrestart; exact ⟨rfl, .hunting rfl hnone hrestart⟩

theorem Serial.push_follows {m : Serial} {r : List Byte} (h : m.Tracks r) (b : Byte) :
    Serial.Follows (m.push b) (reassemble (r ++ [b])) := by
  obtain ⟨k, fr⟩ := m
  cases h with
  | collecting hfr found short =>
    subst hfr
    exact Serial.push_follows_collecting found short b
  | hunting hfr notFound count =>
    subst hfr
    exact Serial.push_follows_hunting notFound count b

/-! ## All bytes -/

/-- Byte after byte, the machine follows FR (R89). -/
theorem Serial.pushAll_follows {m : Serial} {r : List Byte} (h : m.Tracks r) (bytes : List Byte) :
    Serial.Follows (m.pushAll bytes) (reassemble (r ++ bytes)) := by
  induction bytes generalizing m r with
  | nil =>
    rw [List.append_nil, reassemble_of_atRest h.atRest]
    exact ⟨rfl, h⟩
  | cons b bs ih =>
    obtain ⟨hout, htracks⟩ := Serial.push_follows h b
    obtain ⟨hout', htracks'⟩ := ih htracks
    rw [← List.singleton_append, ← List.append_assoc, reassemble_append (r ++ [b]) bs]
    exact ⟨congrArg₂ (· ++ ·) hout hout', htracks'⟩

/-- Settles O43: from its initial registers the machine follows FR; what it tracks at the end are the two clauses on its registers. -/
theorem serialMachineRefinesReassembler : Obligations.SerialMachineRefinesReassembler := by
  intro bytes m residual
  obtain ⟨hout, htracks⟩ : Serial.Follows (Serial.initial.pushAll bytes) (reassemble bytes) :=
    Serial.pushAll_follows Serial.initial_tracks_nil bytes
  refine ⟨hout, fun hne => ?_, fun hnil => ?_⟩
  · cases htracks with
    | collecting hfr found short =>
      have hlen := findHeader_lt found
      rw [Nat.zero_add, ← hfr] at hlen
      exact ⟨hfr, hlen, hfr ▸ short⟩
    | hunting hfr notFound count => exact absurd hfr hne
  · cases htracks with
    | collecting hfr found short =>
      have hempty : (reassemble bytes).2 = [] := hfr.symm.trans hnil
      rw [hempty] at found
      cases found
    | hunting hfr notFound count => exact ⟨notFound, count.le, count.suffix, count.longest⟩

end Sys2Proof.Machine
end

section
/-! The checksum as a sum in the 8-bit bytes (40_checksum.md), and the commands (42_encoder.md): each is `ENCODE` with its operands. -/

namespace Sys2Proof

/-! ## CHECKSUM (R70 to R72) -/

theorem byteSum_eq_sum (s : List Byte) : byteSum s = (s.map BitVec.toNat).sum := by
  induction s with
  | nil => rfl
  | cons b bs ih => rw [byteSum_cons, ih, List.map_cons, List.sum_cons]

theorem checksum_append (s t : List Byte) : checksum (s ++ t) = checksum s + checksum t := by
  apply BitVec.eq_of_toNat_eq
  rw [BitVec.toNat_add, checksum_toNat, checksum_toNat, checksum_toNat, byteSum_append, Nat.add_mod]

@[simp] theorem checksum_singleton (b : Byte) : checksum [b] = b := by
  apply BitVec.eq_of_toNat_eq
  rw [checksum_toNat, byteSum_cons, byteSum_nil, Nat.add_zero, Nat.mod_eq_of_lt b.isLt]

theorem checksum_cons (b : Byte) (bs : List Byte) : checksum (b :: bs) = b + checksum bs := by
  rw [← List.singleton_append, checksum_append, checksum_singleton]

@[simp] theorem checksum_zeros (n : Nat) : checksum (List.replicate n 0x00#8) = 0#8 := by
  rw [checksum, byteSum_zeros]

theorem checksum_perm {s t : List Byte} (h : s.Perm t) : checksum s = checksum t := by
  rw [checksum, checksum, byteSum_eq_sum, byteSum_eq_sum, (h.map BitVec.toNat).sum_nat]

/-- The accumulator of R71, from any value on. -/
theorem foldl_add_eq (s : List Byte) (acc : Byte) : s.foldl (fun acc b => acc + b) acc = acc + checksum s := by
  induction s generalizing acc with
  | nil => exact (BitVec.add_zero acc).symm
  | cons b bs ih => rw [List.foldl_cons, ih, checksum_cons, BitVec.add_assoc]

theorem checksumAcc_eq (s : List Byte) : checksumAcc s = checksum s := by
  rw [checksumAcc, foldl_add_eq, BitVec.zero_add]

end Sys2Proof

namespace Sys2Proof.Machine

/-- Settles O8: the answer alone is written, and `byteSum` is the sum of the bytes as numbers. -/
theorem checksumIsSumModulo : Obligations.ChecksumIsSumModulo := by
  intro bytes rest s
  rw [← byteSum_eq_sum]
  rfl

/-- Settles O9: addition of bytes is commutative and associative, and zero is its unit. -/
theorem checksumAccumulatesInAnyOrder : Obligations.ChecksumAccumulatesInAnyOrder := by
  refine ⟨fun s t h => ?_, checksum_append, fun s n => ?_⟩
  · rw [checksumAcc_eq, checksum_perm h]
  · rw [checksum_append, checksum_zeros]
    exact BitVec.add_zero _

/-! ## The frame of a command -/

/-- The sum of the first 19 bytes: the header gives 0x27A, the padding nothing (R94). -/
theorem byteSum_commandFields (opcode : Byte) {payload : List Byte} (h : payload.length ≤ 13) :
    byteSum (commandFields opcode payload) = 0x27A + opcode.toNat + payload.length + byteSum payload := by
  simp only [commandFields, byteSum_append, byteSum_cons, byteSum_nil, byteSum_zeros, lengthByte_toNat h, BitVec.toNat_ofNat]
  omega

/-- The same sum as an 8-bit addition. -/
theorem checksum_commandFields (opcode : Byte) (payload : List Byte) :
    checksum (commandFields opcode payload) = 0x7A#8 + opcode + BitVec.ofNat 8 payload.length + checksum payload := by
  have hfields : commandFields opcode payload = [0xAA#8, 0x55#8, 0x90#8, 0xEB#8] ++ ([opcode] ++ ([BitVec.ofNat 8 payload.length] ++
      (payload ++ List.replicate (13 - payload.length) 0x00#8))) := rfl
  have hmagic : checksum [0xAA#8, 0x55#8, 0x90#8, 0xEB#8] = 0x7A#8 := by decide
  simp only [hfields, checksum_append, hmagic, checksum_singleton, checksum_zeros]
  bv_omega

/-- The frame of a command by the fields of format TX20, its last byte in closed form (R55, R94). -/
theorem buildCommand_eq_fields (opcode : Byte) {payload : List Byte} (h : payload.length ≤ 13) :
    buildCommand opcode payload =
      [0xAA#8, 0x55#8, 0x90#8, 0xEB#8, opcode, BitVec.ofNat 8 payload.length] ++ payload
        ++ List.replicate (13 - payload.length) 0x00#8
        ++ [0x7A#8 + opcode + BitVec.ofNat 8 payload.length + checksum payload] := by
  rw [buildCommand_eq opcode h, ← checksum_commandFields opcode payload]
  rfl

/-- Settles O10: what a command answers is the frame built from its operands. -/
theorem returnedFrameLengthAndChecksum : Obligations.ReturnedFrameLengthAndChecksum := by
  intro opcode payload c s t hrun hans
  rw [runCommand, exec_nameCommand] at hrun
  obtain ⟨σ, -, ⟨hp, rfl⟩ | ⟨-, rfl⟩⟩ := encodeOp_cases hrun
  · cases hans
    have hsum := byteSum_commandFields opcode hp
    have hck : checksum (slice (buildCommand opcode payload) 0 19) = checksum (commandFields opcode payload) := by
      rw [slice_buildCommand_fields opcode hp]
    refine ⟨buildCommand_length opcode hp, ?_, ?_, ?_, rfl⟩
    · rw [hck, slice_buildCommand_checksum opcode hp]
    · rw [hck, checksum_toNat, hsum, byteSum_eq_sum]
      omega
    · rw [hck, buildCommand_eq opcode hp, checksum_append, checksum_singleton, BitVec.toNat_add]
      omega
  · cases hans

/-! ## The commands -/

/-- A command with a payload that fits, in a session. -/
theorem exec_nameCommand_fits {s : State} {σ : Session} (hs : s.session = some σ) (opcode : Byte) {payload : List Byte}
    (hp : payload.length ≤ 13) :
    exec (nameCommand opcode payload) s =
      .next { s with events := s.events ++ [.tx (buildCommand opcode payload)], answer := .cmd (buildCommand opcode payload) } := by
  rw [exec_nameCommand, encodeOp_fits hs opcode hp]
  rfl

/-- Settles O11: a well-formed command is the name of its operands, which its encoding carries. -/
theorem commandsEmitTheirWord : Obligations.CommandsEmitTheirWord := by
  intro i s hcmd hwf hs
  obtain ⟨σ, hs⟩ := Option.isSome_iff_exists.1 hs
  obtain ⟨opcode, payload, hp, rfl⟩ | ⟨kind, body, -, rfl⟩ := wellFormed_cases hwf
  · rw [encode_nameCommand opcode hp]
    exact exec_nameCommand_fits hs opcode hp
  · rw [nameFrame_isCommand] at hcmd
    cases hcmd

/-- Settles O12: the frames of opcodes 0x96 and 0x97 with no payload. -/
theorem refreshAndInfoFrames : Obligations.RefreshAndInfoFrames := by
  intro s hs refresh info
  have hrefresh : encode .cmdRefresh = refresh := by decide
  have hinfo : encode .cmdInfo = info := by decide
  exact ⟨hrefresh ▸ commandsEmitTheirWord .cmdRefresh s rfl rfl hs, hinfo ▸ commandsEmitTheirWord .cmdInfo s rfl rfl hs⟩

/-- Settles O13: the closed form of the checksum at length 1. -/
theorem setFramesForEveryValue : Obligations.SetFramesForEveryValue := by
  intro v s hs charge discharge
  have hfits : [v].length ≤ 13 := by simp
  have hcharge : encode (.cmdSetCharge v) = charge := by
    rw [show encode (.cmdSetCharge v) = tx20 0x1D#8 [v] from rfl, tx20_eq _ hfits, buildCommand_eq_fields _ hfits, checksum_singleton]
    rfl
  have hdischarge : encode (.cmdSetDischarge v) = discharge := by
    rw [show encode (.cmdSetDischarge v) = tx20 0x1E#8 [v] from rfl, tx20_eq _ hfits, buildCommand_eq_fields _ hfits,
      checksum_singleton]
    rfl
  exact ⟨hcharge ▸ commandsEmitTheirWord (.cmdSetCharge v) s rfl rfl hs,
    hdischarge ▸ commandsEmitTheirWord (.cmdSetDischarge v) s rfl rfl hs⟩

/-- Settles O14: both instructions are `ENCODE` with their payload bytes unchanged. -/
theorem payloadCommandsBuildFields : Obligations.PayloadCommandsBuildFields := by
  intro i opcode payload s hi hs hp
  obtain ⟨σ, hs⟩ := Option.isSome_iff_exists.1 hs
  refine ⟨buildCommand opcode payload, ?_, buildCommand_eq_fields opcode hp⟩
  obtain rfl | ⟨rfl, rfl⟩ := hi <;> exact encodeOp_fits hs _ hp

/-- Settles O15: the length alone decides, and a refused command has nothing to write. -/
theorem overlongCommandIsRefused : Obligations.OverlongCommandIsRefused := by
  intro opcode payload w rest s hs hlong
  obtain ⟨σ, hs⟩ := Option.isSome_iff_exists.1 hs
  refine ⟨?_, encodeOp_tooLong hs 0x05#8 hlong, encodeOp_tooLong hs opcode hlong⟩
  refine (hostCommand_eq (s := s.setPending rest) hs opcode payload w).trans ?_
  rw [if_pos hlong]
  rfl

/-- Settles O17: the two ends of `ENCODE`, at 13 bytes and beyond. -/
theorem commandAnswersFrameIffFits : Obligations.CommandAnswersFrameIffFits := by
  intro opcode payload s hs
  obtain ⟨σ, hs⟩ := Option.isSome_iff_exists.1 hs
  rw [runCommand, exec_nameCommand]
  by_cases hp : payload.length ≤ 13
  · exact ⟨_, encodeOp_fits hs opcode hp, ⟨fun _ => hp, fun _ => ⟨_, rfl⟩⟩, fun hlong => absurd hp (by omega)⟩
  · refine ⟨_, encodeOp_tooLong hs opcode (by omega), ⟨?_, fun h => absurd h hp⟩, fun _ => rfl⟩
    rintro ⟨c, hc⟩
    cases hc

/-- Settles O18: the two ends of `ENCODE` name no part of the state but the events they append to. -/
theorem encodeIgnoresState : Obligations.EncodeIgnoresState := by
  intro opcode payload s s' hs hs'
  obtain ⟨σ, hs⟩ := Option.isSome_iff_exists.1 hs
  obtain ⟨σ', hs'⟩ := Option.isSome_iff_exists.1 hs'
  rw [runCommand, runCommand, exec_nameCommand, exec_nameCommand]
  by_cases hp : payload.length ≤ 13
  · exact ⟨_, _, [.tx (buildCommand opcode payload)], encodeOp_fits hs opcode hp, encodeOp_fits hs' opcode hp,
      rfl, rfl, rfl, rfl, rfl, rfl, rfl⟩
  · exact ⟨_, _, [], encodeOp_tooLong hs opcode (by omega), encodeOp_tooLong hs' opcode (by omega),
      rfl, (List.append_nil _).symm, (List.append_nil _).symm, rfl, rfl, rfl, rfl⟩

end Sys2Proof.Machine
end

section
/-! The opcode table (R66): which rows cover a frame, and the numbering of a frame's bits. -/

namespace Sys2Proof

/-! ## Masks -/

theorem and_ff (b : Byte) : b &&& 0xFF#8 = b := BitVec.and_allOnes

/-- A row that leaves every byte free matches. -/
theorem maskMatches_free {n : Nat} {bytes : List Byte} (h : bytes.length = n) :
    maskMatches (List.replicate n 0x00#8) (List.replicate n 0x00#8) bytes = true := by
  subst h
  induction bytes with
  | nil => rfl
  | cons b bs ih =>
    rw [List.length_cons, List.replicate_succ, maskMatches, ih, BitVec.and_zero]
    rfl

/-- A row that fixes its first bytes matches the sequences that begin with them. -/
theorem maskMatches_fixed {fixed : List Byte} {n : Nat} {bytes : List Byte} (h : bytes.length = fixed.length + n) :
    maskMatches (fixed ++ List.replicate n 0x00#8) (List.replicate fixed.length 0xFF#8 ++ List.replicate n 0x00#8) bytes
      = decide (bytes.take fixed.length = fixed) := by
  induction fixed generalizing bytes with
  | nil =>
    rw [List.length_nil, Nat.zero_add] at h
    exact maskMatches_free h
  | cons p ps ih =>
    obtain ⟨b, bs, rfl⟩ := List.exists_cons_of_length_pos (l := bytes) (by rw [h, List.length_cons]; omega)
    rw [List.length_cons, List.length_cons] at h
    rw [List.length_cons, List.replicate_succ, List.cons_append, List.cons_append, maskMatches, ih (by omega), and_ff,
      List.take_succ_cons, ← Bool.decide_and]
    exact decide_eq_decide.2 List.cons_eq_cons.symm

/-- A row of the other format covers nothing. -/
theorem covers_of_length_ne {row : OpcodeRow} {bytes : List Byte} (h : bytes.length ≠ row.length) : row.covers bytes = false := by
  rw [OpcodeRow.covers, decide_eq_false h, Bool.false_and]

/-- A row of the sequence's format covers it if the mask matches. -/
theorem covers_of_length_eq {row : OpcodeRow} {bytes : List Byte} (h : bytes.length = row.length) :
    row.covers bytes = maskMatches row.pattern row.mask bytes := by
  rw [OpcodeRow.covers, decide_eq_true h, Bool.true_and]

theorem txRow_covers (mnemonic : String) {fixed bytes : List Byte} (hf : fixed.length ≤ 20) (hb : bytes.length = 20) :
    (txRow mnemonic fixed).covers bytes = decide (bytes.take fixed.length = fixed) :=
  (covers_of_length_eq hb).trans (maskMatches_fixed (n := 20 - fixed.length) (by omega))

end Sys2Proof

namespace Sys2Proof.Machine

/-! ## The rows that cover a command frame -/

section
variable (mnemonic : String) (opcode : Byte) {payload : List Byte} (h : payload.length ≤ 13)
include h

theorem txRow_covers_buildCommand_magic : (txRow mnemonic Config.txMagic).covers (buildCommand opcode payload) = true := by
  rw [txRow_covers mnemonic (by decide) (buildCommand_length opcode h), buildCommand_eq_cons opcode h]
  rfl

theorem txRow_covers_buildCommand_opcode (op : Byte) :
    (txRow mnemonic (Config.txMagic ++ [op])).covers (buildCommand opcode payload) = decide (opcode = op) := by
  rw [txRow_covers mnemonic (by simp) (buildCommand_length opcode h), buildCommand_eq_cons opcode h]
  simp

/-- A row that fixes all 20 bytes of a command covers that command alone. -/
theorem txRow_covers_buildCommand_whole (op : Byte) :
    (txRow mnemonic (tx20 op [])).covers (buildCommand opcode payload) = decide (opcode = op ∧ payload = []) := by
  have hop : (buildCommand op []).length = 20 := buildCommand_length op (by decide)
  have hlen := buildCommand_length opcode h
  rw [tx20_eq op (by decide), txRow_covers mnemonic hop.le hlen, hop, List.take_of_length_le hlen.le]
  refine decide_eq_decide.2 ⟨fun he => encodeIsInjective _ _ _ _ h (by decide) he, ?_⟩
  rintro ⟨rfl, rfl⟩
  rfl

/-- A row with a one-byte payload covers the commands of its opcode with one byte. -/
theorem setRow_covers_buildCommand (op : Byte) :
    (setRow mnemonic op).covers (buildCommand opcode payload) = decide (opcode = op ∧ payload.length = 1) := by
  rw [covers_of_length_eq (row := setRow mnemonic op) (buildCommand_length opcode h), buildCommand_eq_cons opcode h]
  by_cases h1 : payload.length = 1
  · obtain ⟨v, rfl⟩ := List.length_eq_one_iff.1 h1
    simp [setRow, maskMatches, and_ff, List.replicate]
  · have hne : BitVec.ofNat 8 payload.length ≠ 1#8 := fun he => h1 (by rw [← lengthByte_toNat h, he]; rfl)
    simp [setRow, maskMatches, and_ff, h1, hne]

omit h in
/-- What `CMD.RAW` names matches no earlier row. -/
theorem namedCommand_eq_false (hr : namedCommand opcode payload.length = false) :
    opcode ≠ 0x05#8 ∧ ¬ (opcode = 0x1D#8 ∧ payload.length = 1) ∧ ¬ (opcode = 0x1E#8 ∧ payload.length = 1) ∧
      ¬ (opcode = 0x96#8 ∧ payload = []) ∧ ¬ (opcode = 0x97#8 ∧ payload = []) := by
  simpa [namedCommand, and_assoc] using hr

/-- The first matching row names a command as `nameCommand` does. -/
theorem firstRow_buildCommand :
    ∃ row, firstRow (buildCommand opcode payload) = some row ∧ row.mnemonic = (nameCommand opcode payload).mnemonic ∧
      row.length = 20 := by
  simp only [firstRow, opcodeTable, List.find?_cons, txRow_covers_buildCommand_opcode _ _ h, setRow_covers_buildCommand _ _ h,
    txRow_covers_buildCommand_whole _ _ h, txRow_covers_buildCommand_magic _ _ h]
  obtain ⟨rfl, hn⟩ | ⟨rfl, v, rfl, hn⟩ | ⟨rfl, v, rfl, hn⟩ | ⟨rfl, rfl, hn⟩ | ⟨rfl, rfl, hn⟩ | ⟨hr, hn⟩ :=
    nameCommand_cases opcode payload <;> rw [hn]
  case inr.inr.inr.inr.inr =>
    obtain ⟨h05, h1D, h1E, h96, h97⟩ := namedCommand_eq_false opcode hr
    simp only [decide_eq_false h05, decide_eq_false h1D, decide_eq_false h1E, decide_eq_false h96, decide_eq_false h97]
    exact ⟨_, rfl, rfl, rfl⟩
  all_goals exact ⟨_, rfl, rfl, rfl⟩

end

/-! ## The rows that cover an inbound frame -/

theorem rx300_length (kind : Byte) {body : List Byte} (h : body.length = 295) : (rx300 kind body).length = 300 := by
  simp [h]

section
variable (mnemonic : String) (kind : Byte) {body : List Byte} (h : body.length = 295)
include h

theorem rxRow_covers_rx300_some (k : Byte) : (rxRow mnemonic (some k)).covers (rx300 kind body) = decide (kind = k) := by
  rw [covers_of_length_eq (row := rxRow mnemonic (some k)) (rx300_length kind h)]
  simp [rxRow, maskMatches, and_ff]

theorem rxRow_covers_rx300_none : (rxRow mnemonic none).covers (rx300 kind body) = true := by
  rw [covers_of_length_eq (row := rxRow mnemonic none) (rx300_length kind h)]
  simp [rxRow, maskMatches, and_ff]

/-- No command row covers an inbound frame. -/
theorem covers_rx300_of_length {row : OpcodeRow} (hrow : row.length = 20) : row.covers (rx300 kind body) = false :=
  covers_of_length_ne (by rw [rx300_length kind h, hrow]; decide)

/-- The first matching row names an inbound frame as `nameFrame` does. -/
theorem firstRow_rx300 :
    ∃ row, firstRow (rx300 kind body) = some row ∧ row.mnemonic = (nameFrame kind body).mnemonic ∧ row.length = 300 := by
  simp only [firstRow, opcodeTable, List.find?_cons, rxRow_covers_rx300_some _ _ h, rxRow_covers_rx300_none _ _ h,
    covers_rx300_of_length (row := txRow _ _) _ h rfl, covers_rx300_of_length (row := setRow _ _) _ h rfl]
  obtain ⟨rfl, hn⟩ | ⟨rfl, hn⟩ | ⟨hr, hn⟩ := nameFrame_cases kind body <;> rw [hn]
  case inr.inr =>
    obtain ⟨h2, h3⟩ : kind ≠ 0x02#8 ∧ kind ≠ 0x03#8 := by simpa [namedKind] using hr
    simp only [decide_eq_false h2, decide_eq_false h3]
    exact ⟨_, rfl, rfl, rfl⟩
  all_goals exact ⟨_, rfl, rfl, rfl⟩

end

/-- Settles O5: what decodes is a frame of one of the two formats, under its name. -/
theorem decodedRowIsFirstMatch : Obligations.DecodedRowIsFirstMatch := by
  intro bytes i h
  obtain ⟨opcode, payload, hp, rfl, rfl⟩ | ⟨kind, body, hb, rfl, rfl⟩ := decode_ok_cases h
  · rw [buildCommand_length opcode hp]
    exact firstRow_buildCommand opcode hp
  · rw [rx300_length kind hb]
    exact firstRow_rx300 kind hb

/-- Settles O6: the inbound frame by its parts, the five commands by running the decoder. -/
theorem writtenWordsDecode : Obligations.WrittenWordsDecode :=
  ⟨by decide, by decide, by decide, by decide, by decide, decode_frame 0x02#8 List.length_replicate⟩

/-! ## The numbering of a frame's bits -/

theorem wordBytes_zero (n : Nat) : wordBytes n 0 = List.replicate n 0x00#8 := by
  induction n with
  | zero => rfl
  | succ n ih => rw [wordBytes, Nat.zero_div, ih, List.replicate_succ]

/-- The bytes of a little-endian number, zeros above them. -/
theorem wordBytes_leValue {n : Nat} {s : List Byte} (h : s.length ≤ n) :
    wordBytes n (leValue s) = s ++ List.replicate (n - s.length) 0x00#8 := by
  induction s generalizing n with
  | nil => exact wordBytes_zero n
  | cons b bs ih =>
    match n, h with
    | n + 1, h =>
      have hlt := b.isLt
      have hdiv : (b.toNat + 256 * leValue bs) / 256 = leValue bs := by omega
      have hbyte : BitVec.ofNat 8 (b.toNat + 256 * leValue bs) = b := by
        apply BitVec.eq_of_toNat_eq
        rw [BitVec.toNat_ofNat]
        omega
      rw [leValue_cons, wordBytes, hdiv, hbyte, ih (Nat.le_of_succ_le_succ h), List.length_cons, Nat.succ_sub_succ, List.cons_append]

/-- The number of a sequence fits its bits. -/
theorem leValue_mod (s : List Byte) : leValue s % 2 ^ (8 * s.length) = leValue s := by
  apply Nat.mod_eq_of_lt
  rw [Nat.pow_mul]
  exact leValue_lt s

/-- The bits of a sequence of at most 300 bytes are laid out as the sequence, cut to 20 bytes behind the outbound header. -/
theorem layoutWord_leValue {s : List Byte} (h : s.length ≤ 300) :
    layoutWord (8 * s.length) (leValue s) =
      if (s ++ List.replicate (300 - s.length) 0x00#8).take 4 = Config.txMagic then
        (s ++ List.replicate (300 - s.length) 0x00#8).take 20
      else s ++ List.replicate (300 - s.length) 0x00#8 := by
  rw [layoutWord_eq, leValue_mod, wordBytes_leValue h]

theorem layoutWord_encode {i : Instr} (hi : i.wellFormed = true) :
    layoutWord (8 * (encode i).length) (leValue (encode i)) = encode i := by
  obtain ⟨opcode, payload, hp, rfl⟩ | ⟨kind, body, hb, rfl⟩ := wellFormed_cases hi
  · rw [encode_nameCommand opcode hp]
    have hl := buildCommand_length opcode hp
    have hm : (buildCommand opcode payload).take 4 = Config.txMagic := by
      rw [← slice_zero]
      exact slice_buildCommand_magic opcode hp
    rw [layoutWord_leValue (by omega), List.take_append_of_le_length (by omega), if_pos hm, List.take_left' hl]
  · rw [encode_nameFrame]
    have hl := rx300_length kind hb
    rw [layoutWord_leValue (by omega), hl, Nat.sub_self, List.replicate_zero, List.append_nil]
    exact if_neg (by simp)

/-- Settles O7: the layout gives the encoding back, and the decoder reads it (O1). -/
theorem tableWordIsEncoding : Obligations.TableWordIsEncoding := by
  intro i hi
  refine ⟨layoutWord_encode hi, ?_⟩
  rw [decodeTableWord, layoutWord_encode hi, decodeInvertsEncode i hi]

end Sys2Proof.Machine
end

section
/-! Sessions (70_reset_and_hazards.md), the instruction a step runs, and the two sides of the engine in either order (20_memory.md). -/

namespace Sys2Proof.Machine

/-! ## The ends of a session -/

/-- Settles O44: the reset values, written out. -/
theorem connectResetsEngine : Obligations.ConnectResetsEngine := fun _ _ _ => ⟨_, rfl, rfl, rfl, rfl⟩

/-- Settles O45: a teardown writes session and host without reading them, and so does the connect after it. -/
theorem teardownDiscardsEngine : Obligations.TeardownDiscardsEngine :=
  ⟨fun _ _ => ⟨_, rfl, rfl, rfl, rfl, rfl⟩, fun _ _ _ => rfl⟩

/-- Outside a session no instruction has a step (R183). -/
theorem exec_outsideSession {s : State} (hs : s.session = none) (i : Instr) : exec i s = .refused .outsideSession := by
  cases i <;> exact inSession_none hs _

/-- Settles O46: every operation but `CHECKSUM` first tests for the session. -/
theorem noStepOutsideSession : Obligations.NoStepOutsideSession := by
  intro s hs
  refine ⟨exec_outsideSession hs, fun chunk => inSession_none hs _, fun opcode payload w => ?_, fun f => ?_, fun bytes => ⟨_, rfl, rfl⟩⟩
  · rw [perform, hostCommand, runCommand, exec_outsideSession hs, andThen_refused]
  · exact ⟨inSession_none hs _, inSession_none hs _, inSession_none hs _⟩

/-! ## The instruction a step runs -/

theorem andThen_next_right (o : Result) : andThen o .next = o := by cases o <;> rfl

/-- Two continuations that agree on what the operation can answer. -/
theorem andThen_congr {o : Result} {k l : State → Result} (h : ∀ t, o = .next t → k t = l t) : andThen o k = andThen o l := by
  cases o with
  | next t => exact h t rfl
  | fault r => rfl
  | refused r => rfl

/-- A command whose payload fits answers its frame (R90). -/
theorem exec_nameCommand_answer {opcode : Byte} {payload : List Byte} (hp : payload.length ≤ 13) {s t : State}
    (h : exec (nameCommand opcode payload) s = .next t) : t.answer = .cmd (buildCommand opcode payload) := by
  rw [exec_nameCommand] at h
  obtain ⟨σ, -, ⟨-, rfl⟩ | ⟨hlong, -⟩⟩ := encodeOp_cases h
  · rfl
  · omega

/-- Settles O51: the decoder names the operands, and the write of the frame they build is answered to the host. -/
theorem commandRunsItsWord : Obligations.CommandRunsItsWord := by
  intro opcode payload w rest s hp
  refine ⟨nameCommand opcode payload, decode_buildCommand opcode hp, nameCommand_wellFormed opcode hp, andThen_congr fun t ht => ?_⟩
  rw [reportWrite_cmd (exec_nameCommand_answer hp ht)]
  rfl

/-- A placed command is the transaction of its operands, with a write that succeeds. -/
theorem placeInstr_buildCommand (s : State) (opcode : Byte) {payload : List Byte} (hp : payload.length ≤ 13) :
    s.placeInstr (buildCommand opcode payload) = s.setPending (.command opcode payload true :: s.pending) := by
  have ht : transactionOf (buildCommand opcode payload) = .command opcode payload true := by
    rw [buildCommand_eq_cons opcode hp]
    refine (transactionOf_command _ _ _).trans ?_
    rw [lengthByte_toNat hp, List.append_assoc, List.take_left]
  rw [State.placeInstr, ht]

theorem placeInstr_rx300 (s : State) (kind : Byte) (body : List Byte) :
    s.placeInstr (rx300 kind body) = s.clearBuf.setPending (.chunk (rx300 kind body) :: s.pending) := by
  rw [State.placeInstr, transactionOf_frame]

/-- From a whole frame alone FR cuts that frame (R80). -/
theorem reassemble_rx300 (kind : Byte) {body : List Byte} (hb : body.length = 295) :
    reassemble (rx300 kind body) = ([rx300 kind body], []) := by
  have hcut := reassemble_frame_append (rx300_length kind hb) rfl []
  rwa [List.append_nil] at hcut

/-- A whole frame at an empty `buf` is run as it stands. -/
theorem feed_rx300 {s : State} {σ : Session} (hs : s.session = some σ) (hbuf : σ.buf = []) (kind : Byte) {body : List Byte}
    (hb : body.length = 295) : feed (rx300 kind body) s = exec (nameFrame kind body) (s.setAnswer .done) := by
  have hsame : { s with session := some { σ with buf := [] }, answer := .done } = s.setAnswer .done := by
    rw [← hbuf, ← hs]
    rfl
  rw [feed_of_reassemble_one_frame hs (by rw [hbuf, List.nil_append, reassemble_rx300 kind hb]), hsame, runFrame,
    show decode (rx300 kind body) = .ok (nameFrame kind body) from decode_frame kind hb]

/-- Settles O50: a command comes as its operands, a frame as a chunk that FR cuts whole. -/
theorem stepRunsPlacedInstruction : Obligations.StepRunsPlacedInstruction := by
  intro i s hi hs
  obtain ⟨σ, hs⟩ := Option.isSome_iff_exists.1 hs
  obtain ⟨opcode, payload, hp, rfl⟩ | ⟨kind, body, hb, rfl⟩ := wellFormed_cases hi
  · rw [encode_nameCommand opcode hp, placeInstr_buildCommand s opcode hp, if_pos (nameCommand_isCommand opcode payload)]
    refine (andThen_congr fun t _ => ?_).trans (andThen_next_right _)
    rw [reportWrite_true]
  · have hclear : s.clearBuf.session = some (σ.setBuf []) := by rw [State.clearBuf_session, hs, Option.map_some]
    rw [encode_nameFrame, placeInstr_rx300, nameFrame_isCommand, if_neg Bool.false_ne_true]
    exact feed_rx300 hclear rfl kind hb

/-! ## Transmit and receive -/

/-- What a command appends to the events, the reports and the failed writes does not depend on the state, and it touches nothing else but
the answer (R96, R103, R166). -/
theorem hostCommand_appends (opcode : Byte) (payload : List Byte) (w : Bool) :
    ∃ es rs fs, (∀ e ∈ es, Event.isTx e = true) ∧ ∀ (s : State) (σ : Session), s.session = some σ →
      ∃ t, hostCommand opcode payload w s = .next t ∧ t.session = s.session ∧ t.pending = s.pending ∧ t.host = s.host ∧
        t.events = s.events ++ es ∧ t.reports = s.reports ++ rs ∧ t.writeFailures = s.writeFailures ++ fs := by
  by_cases hlong : 13 < payload.length
  · refine ⟨[], [], [], by simp, fun s σ hs => ⟨_, (hostCommand_eq hs opcode payload w).trans (if_pos hlong), ?_⟩⟩
    simp
  · cases w with
    | true =>
      refine ⟨[.tx (buildCommand opcode payload)], [], [], by simp [Event.isTx], fun s σ hs =>
        ⟨_, (hostCommand_eq hs opcode payload true).trans (if_neg hlong), ?_⟩⟩
      simp
    | false =>
      refine ⟨[.tx (buildCommand opcode payload)], [.transportError], [buildCommand opcode payload], by simp [Event.isTx], fun s σ hs =>
        ⟨_, (hostCommand_eq hs opcode payload false).trans (if_neg hlong), ?_⟩⟩
      simp

/-- Two runs of events of which one is all of a kind and the other has none of it: their order does not show on either side. -/
theorem filter_append_comm {p : Event → Bool} {es fs : List Event} (hes : ∀ e ∈ es, p e = true) (hfs : ∀ e ∈ fs, p e = false)
    (evs : List Event) :
    ((evs ++ es) ++ fs).filter p = ((evs ++ fs) ++ es).filter p ∧
    ((evs ++ es) ++ fs).filter (fun e => !p e) = ((evs ++ fs) ++ es).filter (fun e => !p e) := by
  have hfs' : fs.filter p = [] := List.filter_eq_nil_iff.2 fun e he => by rw [hfs e he]; exact Bool.false_ne_true
  have hes' : es.filter (fun e => !p e) = [] := List.filter_eq_nil_iff.2 fun e he => by rw [hes e he]; exact Bool.false_ne_true
  simp only [List.filter_append, hfs', hes', List.append_nil, and_self]

/-- Settles O55: the command appends the same in either order, and the chunk reads no more than the session, which the command keeps. -/
theorem encodeAndFeedCommute : Obligations.EncodeAndFeedCommute := by
  intro opcode payload chunk w s hs
  obtain ⟨σ, hs⟩ := Option.isSome_iff_exists.1 hs
  obtain ⟨es, rs, fs, htx, hcmd⟩ := hostCommand_appends opcode payload w
  obtain ⟨c, hc, hcs, hcp, hch, hce, hcr, hcw⟩ := hcmd s σ hs
  obtain ⟨u, hu, hus, hup, huh, hue, hur, huw⟩ := hcmd (s.afterChunk σ chunk) _ rfl
  have hfirst : andThen (perform (.command opcode payload w) s) (perform (.chunk chunk)) = .next (c.afterChunk σ chunk) := by
    rw [perform, hc, andThen_next]
    exact feed_eq (hcs.trans hs) chunk
  have hsecond : andThen (perform (.chunk chunk) s) (perform (.command opcode payload w)) = .next u := by
    rw [perform, feed_eq hs, andThen_next]
    exact hu
  obtain ⟨hfilter, hfilter'⟩ := filter_append_comm htx (σ.framesEvents_isTx (reassemble (σ.buf ++ chunk)).1) s.events
  refine ⟨_, u, hfirst, hsecond, hus.symm, ?_, ?_, hcp.trans hup.symm, hch.trans huh.symm, hcr.trans hur.symm, hcw.trans huw.symm⟩
  · rw [hue, State.afterChunk, State.afterChunk, State.received_events, State.setAnswer_events, hce]
    exact hfilter
  · rw [hue, State.afterChunk, State.afterChunk, State.received_events, State.setAnswer_events, hce]
    exact hfilter'

/-! ## Two frames in one chunk -/

/-- Two whole frames at an empty `buf`: the second is received with the registers the first has left (R139). -/
theorem feed_rx300_rx300 {s : State} {σ : Session} (hs : s.session = some σ) (hbuf : σ.buf = []) (k k' : Byte) {body body' : List Byte}
    (hb : body.length = 295) (hb' : body'.length = 295) :
    feed (rx300 k body ++ rx300 k' body') s =
      .next ((s.setAnswer .done).received ((σ.afterFrame (frameOf k body)).afterFrame (frameOf k' body'))
        (σ.frameEvents (frameOf k body) ++ (σ.afterFrame (frameOf k body)).frameEvents (frameOf k' body'))) := by
  have hcut : reassemble (σ.buf ++ (rx300 k body ++ rx300 k' body')) = ([rx300 k body, rx300 k' body'], []) := by
    rw [hbuf, List.nil_append, reassemble_frame_append (rx300_length k hb) rfl, reassemble_rx300 k' hb']
  have hempty : ∀ τ : Session, τ.buf = [] → τ.setBuf [] = τ := fun τ hτ => by rw [← hτ]; rfl
  rw [feed_eq hs, hcut]
  simp only [Session.afterFrames, Session.framesEvents, List.append_nil]
  rw [hempty _ (by rw [Session.afterFrame_buf, Session.afterFrame_buf, hbuf])]
  rfl

/-- Settles O56: in one order the offset is the one just detected, in the other the one from before. -/
theorem newOffsetIsUsedAtOnce : Obligations.NewOffsetIsUsedAtOnce := by
  intro bi bs s σ hs hbuf hbi hbs fi fs
  refine ⟨⟨(σ.detectVariant fi).decodeStatus fs, feed_rx300_rx300 hs hbuf 0x03#8 0x02#8 hbi hbs, rfl, ?_⟩,
    ⟨(σ.decodeStatus fs).detectVariant fi, feed_rx300_rx300 hs hbuf 0x02#8 0x03#8 hbs hbi, rfl⟩⟩
  have hlegal : (σ.detectVariant fi).variantOffset ≤ 132 := le_of_legal_offset (selectVariant_legal _ _)
  rw [Session.decodeStatus_eq_of_le _ _ hlegal]
  rfl

end Sys2Proof.Machine
end

section
/-! The host's procedures and its poll timer (46_host_control_session.md, section 2), from the equations of its moves. -/

namespace Sys2Proof.Machine

/-! ## The host's record -/

theorem HostSession.authorized_iff (h : HostSession) : h.authorized = true ↔ h.csState = .authorized := decide_eq_true_iff

/-- A procedure in flight that is replaced is the new one. -/
theorem HostSession.setTask_tasks_getElem? {h : HostSession} {k : Nat} {t : HostTask} (ht : h.tasks[k]? = some t) (t' : HostTask) :
    (h.setTask k t').tasks[k]? = some t' := by
  obtain ⟨hlt, -⟩ := List.getElem?_eq_some_iff.1 ht
  rw [HostSession.setTask_tasks, List.getElem?_set_self hlt]

@[simp] theorem HostSession.startAuthorizing_tasks (h : HostSession) : h.startAuthorizing.tasks = h.tasks := by
  unfold HostSession.startAuthorizing
  split <;> rfl

theorem HostSession.startAuthorizing_unauthorized {h : HostSession} (hc : h.csState = .unauthorized) :
    h.startAuthorizing.csState = .authorizing := by
  rw [HostSession.startAuthorizing, hc]
  rfl

theorem HostSession.startAuthorizing_other {h : HostSession} (hc : h.csState ≠ .unauthorized) :
    h.startAuthorizing.csState = h.csState := by
  unfold HostSession.startAuthorizing
  split
  case h_1 hu => exact absurd hu hc
  all_goals rfl

/-! ## The state machine of R142 -/

/-- A transaction that makes an unauthorized host authorized is a turn that ends `authorize`. -/
theorem perform_sets_authorized {u : Transaction} {s t : State} {h h' : HostSession} (hp : perform u s = .next t) (hh : s.host = some h)
    (hno : h.authorized = false) (hh' : t.host = some h') (hyes : h'.authorized = true) :
    ∃ k w acts, u = .hostMove k w ∧ h.tasks[k]? = some ⟨0, .enterAuthorized :: acts⟩ := by
  have hno' : h.csState ≠ .authorized := fun hc => by rw [(h.authorized_iff).2 hc] at hno; cases hno
  rw [HostSession.authorized_iff] at hyes
  obtain ⟨d, -, rfl⟩ | ⟨-, rfl⟩ | ⟨chunk, σ, -, -, rfl⟩ | he := perform_cases hp
  · cases hh'
    cases hyes
  · cases hh'
  · rw [show (s.afterChunk σ chunk).host = s.host from rfl, hh] at hh'
    cases hh'
    exact absurd hyes hno'
  · obtain hsame | ⟨-, hauthorizing⟩ | ⟨-, hturn⟩ := he.csState h h' hh hh'
    · exact absurd (hsame ▸ hyes) hno'
    · rw [hauthorizing] at hyes
      cases hyes
    · exact hturn

/-- An authorized host stays authorized in every transaction but a connect and a teardown. -/
theorem perform_keeps_authorized {u : Transaction} {s t : State} {h : HostSession} (hp : perform u s = .next t) (hh : s.host = some h)
    (hyes : h.authorized = true) (hlink : u.isLink = false) : ∃ h', t.host = some h' ∧ h'.authorized = true := by
  obtain ⟨d, rfl, -⟩ | ⟨rfl, -⟩ | ⟨chunk, σ, -, -, rfl⟩ | he := perform_cases hp
  · cases hlink
  · cases hlink
  · exact ⟨h, hh, hyes⟩
  · have hlive : t.host.isSome = true := by rw [he.host, hh]; rfl
    obtain ⟨h', hh'⟩ := Option.isSome_iff_exists.1 hlive
    rw [HostSession.authorized_iff] at hyes
    refine ⟨h', hh', h'.authorized_iff.2 ?_⟩
    obtain hsame | ⟨hunauthorized, -⟩ | ⟨hauthorized, -⟩ := he.csState h h' hh hh'
    · rw [hsame, hyes]
    · rw [hunauthorized] at hyes
      cases hyes
    · exact hauthorized

/-- Settles O57: the record a connect makes and a teardown destroys, the two clauses on steps, and the two turns of `authorize`. -/
theorem authorizedOnlyByAuthorize : Obligations.AuthorizedOnlyByAuthorize := by
  refine ⟨fun d s => ⟨_, _, rfl, rfl, rfl⟩, fun s => ⟨_, rfl, rfl⟩, ?_, ?_, ?_⟩
  · intro s t h h' hh hno hstep hh' hyes
    obtain ⟨-, rfl⟩ | ⟨u, rest, hpend, hp⟩ := step_cases hstep
    · rw [hh] at hh'
      cases hh'
      rw [hno] at hyes
      cases hyes
    · obtain ⟨k, w, acts, rfl, htask⟩ := perform_sets_authorized (s := s.setPending rest) hp hh hno hh' hyes
      exact ⟨k, w, rest, acts, hpend, htask⟩
  · intro s t h hh hyes hstep hlink
    obtain ⟨-, rfl⟩ | ⟨u, rest, hpend, hp⟩ := step_cases hstep
    · exact ⟨h, hh, hyes⟩
    · exact perform_keeps_authorized (s := s.setPending rest) hp hh hyes (hlink u rest hpend)
  · intro s h k w a acts hs hh htask ha
    obtain ⟨σ, hs⟩ := Option.isSome_iff_exists.1 hs
    have htask' := HostSession.setTask_tasks_getElem? htask ⟨0, acts⟩
    rw [perform, hostMove_acts hs hh htask w]
    obtain rfl | rfl := ha
    · refine ⟨_, _, rfl, rfl, by rw [HostSession.startAuthorizing_tasks, htask'], fun _ hc => ?_, fun _ hc => ?_, nofun⟩
      · exact HostSession.startAuthorizing_unauthorized hc
      · exact HostSession.startAuthorizing_other hc
    · exact ⟨_, _, rfl, rfl, htask', nofun, nofun, fun _ => rfl⟩

/-! ## The procedures -/

/-- `authorizeIfNeeded` puts `authorize` in front if the host is not authorized and a passcode is known (R145). -/
theorem hostAct_authorizeIfNeeded_needed {h : HostSession} {σ : Session} {p : List Byte} (ha : h.authorized = false)
    (hp : σ.setupPasscode = some p) (k : Nat) (acts : List HostAct) (w : Bool) (s : State) :
    hostAct h σ k .authorizeIfNeeded acts w s = .next ((s.setHost (h.setTask k ⟨0, authorizeActs p ++ acts⟩)).setAnswer .done) := by
  rw [hostAct, ha, hp]

theorem hostAct_authorizeIfNeeded_not_needed {h : HostSession} {σ : Session} (hno : h.authorized = true ∨ σ.setupPasscode = none)
    (k : Nat) (acts : List HostAct) (w : Bool) (s : State) :
    hostAct h σ k .authorizeIfNeeded acts w s = .next ((s.setHost (h.setTask k ⟨0, acts⟩)).setAnswer .done) := by
  rw [hostAct]
  split
  case h_1 ha hp =>
    rw [ha, hp] at hno
    obtain h | h := hno <;> cases h
  case h_2 => rfl

theorem ControlReg.opcode_eq (reg : ControlReg) : reg.opcode = if reg = .charge then 0x1D#8 else 0x1E#8 := by cases reg <;> rfl

section
variable {s : State} {σ : Session} {h : HostSession} (hs : s.session = some σ) (hh : s.host = some h)
include hs hh

/-- A call of `authorize` sends the passcode that is known, or some bytes while none is (logs 29, 31). -/
theorem call_authorize_starts :
    ∃ t h' p, hostCall .authorize s = .next t ∧ t.host = some h' ∧ t.session = s.session ∧ t.events = s.events ∧
      h'.tasks = h.tasks ++ [⟨0, authorizeActs p⟩] ∧ (σ.setupPasscode.isSome = true → σ.setupPasscode = some p) := by
  cases hp : σ.setupPasscode with
  | none => exact ⟨_, _, _, hostCall_authorize_unknown hs hh hp, rfl, rfl, rfl, rfl, nofun⟩
  | some p => exact ⟨_, _, p, hostCall_authorize_known hs hh hp, rfl, rfl, rfl, rfl, fun _ => rfl⟩

/-- The turn of `authorizeIfNeeded` (R145). -/
theorem turn_authorizeIfNeeded {k : Nat} {acts : List HostAct} (ht : h.tasks[k]? = some ⟨0, .authorizeIfNeeded :: acts⟩) (w : Bool) :
    ∃ t h', hostMove k w s = .next t ∧ t.host = some h' ∧ t.session = s.session ∧ t.events = s.events ∧
      (∀ p, h.authorized = false → σ.setupPasscode = some p → h'.tasks[k]? = some ⟨0, authorizeActs p ++ acts⟩) ∧
      (h.authorized = true ∨ σ.setupPasscode = none → h'.tasks[k]? = some ⟨0, acts⟩) := by
  rw [hostMove_acts hs hh ht w]
  by_cases hno : h.authorized = true ∨ σ.setupPasscode = none
  · refine ⟨_, _, hostAct_authorizeIfNeeded_not_needed hno k acts w s, rfl, rfl, rfl, fun p ha hp => ?_,
      fun _ => HostSession.setTask_tasks_getElem? ht _⟩
    rw [ha, hp] at hno
    obtain h | h := hno <;> cases h
  · obtain ⟨ha, hp⟩ := not_or.1 hno
    obtain ⟨p, hp⟩ := Option.ne_none_iff_exists'.1 hp
    refine ⟨_, _, hostAct_authorizeIfNeeded_needed (Bool.eq_false_iff.2 ha) hp k acts w s, rfl, rfl, rfl, fun q _ hq => ?_,
      fun h => absurd h hno⟩
    rw [hp] at hq
    cases hq
    exact HostSession.setTask_tasks_getElem? ht _

/-- The turn of a `send` that fits: the frame is emitted, and the transport's answer decides what the host does (R103, R140, R166). -/
theorem turn_send {k : Nat} {opcode : Byte} {payload : List Byte} {acts : List HostAct}
    (ht : h.tasks[k]? = some ⟨0, .send opcode payload :: acts⟩) (hp : payload.length ≤ 13) (w : Bool) :
    ∃ t h', hostMove k w s = .next t ∧ t.host = some h' ∧ t.session = s.session ∧
      t.events = s.events ++ [.tx (buildCommand opcode payload)] ∧
      (w = true → h'.tasks[k]? = some ⟨0, acts⟩ ∧ t.reports = s.reports ∧ t.writeFailures = s.writeFailures) ∧
      (w = false → t.reports = s.reports ++ [.transportError] ∧
        t.writeFailures = s.writeFailures ++ [buildCommand opcode payload]) := by
  rw [hostMove_acts hs hh ht w, hostAct_send hs h σ k opcode hp acts w]
  cases w with
  | true =>
    rw [afterSend_written (State.setAnswer_answer _ _)]
    exact ⟨_, _, rfl, rfl, rfl, rfl, fun _ => ⟨HostSession.setTask_tasks_getElem? ht _, rfl, rfl⟩, nofun⟩
  | false =>
    rw [afterSend_failed (State.setAnswer_answer _ _)]
    exact ⟨_, _, rfl, rfl, rfl, rfl, nofun, fun _ => ⟨rfl, rfl⟩⟩

/-- The turn of a compare (R146, R147). -/
theorem turn_compare {k n : Nat} {reg : ControlReg} {target : Bool} {acts : List HostAct}
    (ht : h.tasks[k]? = some ⟨0, .compare reg target n :: acts⟩) (w : Bool) :
    ∃ t h', hostMove k w s = .next t ∧ t.host = some h' ∧ t.session = s.session ∧ t.events = s.events ∧
      (reg.observed σ = some target → t.reports = s.reports ++ [.robust true] ∧ h'.tasks[k]? = some ⟨0, acts⟩) ∧
      (reg.observed σ ≠ some target → 1 < n → t.reports = s.reports ∧
        h'.tasks[k]? = some ⟨0, robustActs reg target (n - 1) ++ acts⟩) ∧
      (reg.observed σ ≠ some target → n ≤ 1 → t.reports = s.reports ++ [.robust false] ∧ h'.tasks[k]? = some ⟨0, acts⟩) := by
  have hset := HostSession.setTask_tasks_getElem? ht
  rw [hostMove_acts hs hh ht w, hostAct]
  by_cases hobs : reg.observed σ = some target
  · rw [if_pos hobs]
    exact ⟨_, _, rfl, rfl, rfl, rfl, fun _ => ⟨rfl, hset _⟩, fun hne => absurd hobs hne, fun hne => absurd hobs hne⟩
  · rw [if_neg hobs]
    by_cases hn : 1 < n
    · rw [if_pos hn]
      exact ⟨_, _, rfl, rfl, rfl, rfl, fun heq => absurd heq hobs, fun _ _ => ⟨rfl, hset _⟩, fun _ hle => absurd hn (by omega)⟩
    · rw [if_neg hn]
      exact ⟨_, _, rfl, rfl, rfl, rfl, fun heq => absurd heq hobs, fun _ hlt => absurd hlt hn, fun _ _ => ⟨rfl, hset _⟩⟩

end

/-- Settles O58: one lemma for each call and each turn. -/
theorem sendControlAuthorizesFirst : Obligations.SendControlAuthorizesFirst := by
  intro s σ h hs hh
  refine ⟨fun reg value => ?_, call_authorize_starts hs hh, fun k w acts ht => turn_authorizeIfNeeded hs hh ht w,
    fun k w opcode payload acts ht hp => turn_send hs hh ht hp w, fun k w ms acts ht => ?_,
    fun k w n acts ht hn => hostMove_waiting hs hh ht hn w, fun k ms n acts ht => ?_⟩
  · rw [← ControlReg.opcode_eq]
    exact ⟨_, _, hostCall_sendControl hs hh reg value, rfl, rfl, rfl, rfl⟩
  · exact ⟨_, _, hostMove_acts hs hh ht w, rfl, rfl, rfl, HostSession.setTask_tasks_getElem? ht _⟩
  · refine ⟨_, _, hostElapse_eq hh ms, rfl, rfl, rfl, ?_⟩
    rw [List.getElem?_map, ht]
    rfl

/-- Settles O59: the call and the turn of the compare, with the actions of an attempt and the observed register written out. -/
theorem robustComparesObservedStatus : Obligations.RobustComparesObservedStatus := by
  intro s σ h reg target hs hh attempt observed
  have hattempt : ∀ n, robustActs reg target n = attempt n := fun n => by cases reg <;> rfl
  have hobserved : reg.observed σ = observed := by cases reg <;> rfl
  refine ⟨⟨_, _, hostCall_sendRobust hs hh reg target, rfl, rfl, rfl, rfl, by rw [← hattempt 3]⟩, fun k n w acts ht => ?_⟩
  rw [← hobserved, ← hattempt (n - 1)]
  exact turn_compare hs hh ht w

/-- Settles O60: the two equations of the poll, due and not due. -/
theorem pollSendsRefreshWhenDue : Obligations.PollSendsRefreshWhenDue := by
  intro s h w hs hh
  obtain ⟨σ, hs⟩ := Option.isSome_iff_exists.1 hs
  refine ⟨fun hd => ?_, fun hd => hostPoll_notDue hs hh hd w⟩
  rw [perform, hostPoll_due hs hh hd w, noteWrite_cmd (State.setAnswer_answer _ _)]
  cases w <;> rfl

end Sys2Proof.Machine
end
